-- ==== Sys2Proof/Word.lean ====
section
/-! DEFINITION. The word types of the jsHash CORE block (spec 00_scope.md R14: `u64`, `u32`, `u128`;
R16: `u8`). Every value the block computes is an unsigned integer of a stated width (R8). -/

namespace Sys2Proof

/-- `u8`, the element of a byte string (R16). -/
abbrev Byte := BitVec 8

/-- `u32`, the width of a cipher state word (R26). -/
abbrev U32 := BitVec 32

/-- `u64`, the width of a lane, a window register and a command word (R13, R14). -/
abbrev U64 := BitVec 64

/-- `u128`, the width of the exact product of two `u64` values (R15). -/
abbrev U128 := BitVec 128

end Sys2Proof
end

