-- ==== Sys2Proof/Config.lean ====
section
/-! DEFINITION. What an implementation of the block fixes (spec 00_scope.md R12, R70).
The source names these constants and gives no value; the spec makes each a parameter of the model and
forbids hard-wiring the reference configuration REF. Every operation takes a `Params`; the machine runs
at `Config.params`, a constant with no body, so that no proof about the machine can use a value of it.
Log entry 1. -/

namespace Sys2Proof

/-- The configuration parameters of R12, and the window's base address of R70 (`WIN_BASE`). -/
structure Params where
  /-- `MIX_K`, the document's MIX_CONSTANT (R12, R123). -/
  mixK : U64
  /-- `PHI`, the seasoning constant of lane 2 (R12, R161). -/
  phi : U64
  /-- `PHI2`, the seasoning constant of lane 3 (R12, R161). -/
  phi2 : U64
  /-- `SE_GAMMA`, the seed expander's increment (R12, R120). -/
  seGamma : U64
  /-- `SE_S1`, the first xor-shift amount (R12, R120). -/
  seS1 : Nat
  /-- `SE_S2`, the second xor-shift amount (R12, R120). -/
  seS2 : Nat
  /-- `SE_S3`, the final xor-shift amount (R12, R120). -/
  seS3 : Nat
  /-- `SE_M1`, the first multiplier (R12, R120). -/
  seM1 : U64
  /-- `SE_M2`, the second multiplier (R12, R120). -/
  seM2 : U64
  /-- `CC0`..`CC3`, the four constant words of the cipher (R12, R200). -/
  cc : Vector U32 4
  /-- `XMIX_UPD x y t r`, the update of one cross-mix pairing (R12, R162). -/
  xmixUpd : U64 → U64 → U64 → Nat → U64 × U64
  /-- `WIN_BASE`, the window's base in the host's address space, in bytes (R70). -/
  winBase : Nat
  deriving Inhabited

/-- The parameters of the machine that claims are about: any values whatever (R12: "A model must take
these as arguments and must not hard-wire REF"). -/
opaque Config.params : Params

/-- The reference configuration REF (R12, R162), the configuration of every vector of 95_test_vectors.md.
Only tests and witnesses use it. R70 gives `WIN_BASE` no value; zero stands here and nothing reads it. -/
def Params.ref : Params where
  mixK := 0xA0761D6478BD642F
  phi := 0x9E3779B97F4A7C15
  phi2 := 0x61C8864680B583EB
  seGamma := 0x9E3779B97F4A7C15
  seS1 := 30
  seS2 := 27
  seS3 := 31
  seM1 := 0xBF58476D1CE4E5B9
  seM2 := 0x94D049BB133111EB
  cc := #v[0x61707865, 0x3320646E, 0x79622D32, 0x6B206574]
  xmixUpd := fun x y t r => (x ^^^ t, y ^^^ ((t <<< r) ||| (t >>> (64 - r))))
  winBase := 0

/-! Parameters the source does fix (R10, R11, R13). -/

/-- `BLOCK`, the absorption block and the capacity of the pending buffer, in bytes (R10). -/
abbrev blockBytes : Nat := 32

/-- `DATA_MAX`, the most bytes one INS or CXOR moves (R13, R83). -/
abbrev dataMax : Nat := 32

/-- `KS_BLOCK`, the keystream block size in bytes (R10). -/
abbrev ksBytes : Nat := 64

/-- `CTR_INIT`, the cipher's initial block counter (R10, R205). -/
abbrev ctrInit : U64 := 1

/-- `SB_K0`, SecureBlock bytes 48 to 55 (R10, R180). -/
abbrev sbK0 : U64 := 0x517cc1b727220a94

/-- `SB_K1`, SecureBlock bytes 56 to 63 (R10, R180). -/
abbrev sbK1 : U64 := 0x853a83b0eba87773

/-- `SEED_DEFAULT`, SEED's reset value (R10, R37). -/
abbrev seedDefault : U64 := 42

end Sys2Proof
end

