-- ==== Sys2Proof/Syntax.lean ====
section
/-! DEFINITION. The commands of the block: one constructor per row of spec/opcode_table.json, which is the
opcode map of spec 30_encoding.md R86. No operand but LEN is encoded in a command word (R93). -/

namespace Sys2Proof

/-- A command (R86). -/
inductive Instr where
  /-- NOP, OPC 0x00, format N (R105). -/
  | nop
  /-- INIT, OPC 0x01, format N (R140). -/
  | init
  /-- INS, OPC 0x02, format L: absorb `len` bytes of DBYTES (R143). -/
  | ins (len : Nat)
  /-- MIX, OPC 0x03, format N (R124). -/
  | mix
  /-- H64, OPC 0x10, format N (R164). -/
  | h64
  /-- H128, OPC 0x11, format N (R165). -/
  | h128
  /-- H256, OPC 0x12, format N (R166). -/
  | h256
  /-- SEC128, OPC 0x20, format N (R183). -/
  | sec128
  /-- SEC256, OPC 0x21, format N (R184). -/
  | sec256
  /-- SEC512, OPC 0x22, format N (R185). -/
  | sec512
  /-- CINIT, OPC 0x30, format N (R210). -/
  | cinit
  /-- CGEN, OPC 0x31, format N (R211). -/
  | cgen
  /-- CXOR, OPC 0x32, format L: XOR-encrypt `len` bytes of DBYTES (R212). -/
  | cxor (len : Nat)
  deriving DecidableEq, Repr

end Sys2Proof
end

