-- ==== Sys2Proof/WellFormed.lean ====
section
/-! DEFINITION. Which command terms have an encoding (spec 30_encoding.md R83, R85): LEN of a format L
command lies in 0..32. A format N command carries no operand, so every one is well formed. -/

namespace Sys2Proof

/-- The command has an encoding: LEN, where it has one, lies in 0..32 (R83, R85). -/
def Instr.wellFormed : Instr → Bool
  | .ins len => decide (len ≤ dataMax)
  | .cxor len => decide (len ≤ dataMax)
  | .nop => true
  | .init => true
  | .mix => true
  | .h64 => true
  | .h128 => true
  | .h256 => true
  | .sec128 => true
  | .sec256 => true
  | .sec512 => true
  | .cinit => true
  | .cgen => true

end Sys2Proof
end

