-- ==== Sys2Proof/Decode.lean ====
section
/-! DEFINITION. The command word (spec 30_encoding.md R80 to R90): its fields, the total decoder of R89,
which names the ground of R90 on which it rejects a word, the encoder, and the assembler of R94. -/

namespace Sys2Proof

/-- Why a word is illegal (R90). All four are performed alike, as ILLEGAL (R103). -/
inductive Illegal where
  /-- R90 (b): a bit of RSV, word[63:14], is set. -/
  | reservedBits
  /-- R90 (a): OPC is no value of R86. -/
  | unassignedOpcode
  /-- R90 (c): a format N command with LEN ≠ 0. -/
  | lengthOnFormatN
  /-- R90 (d): INS or CXOR with LEN in 33..63. -/
  | lengthOutOfRange
  deriving DecidableEq, Repr

/-- OPC = word[7:0] (R81, R82). -/
def opcField (w : U64) : Byte := w.extractLsb' 0 8

/-- LEN = word[13:8] (R81, R83). -/
def lenField (w : U64) : BitVec 6 := w.extractLsb' 8 6

/-- RSV = word[63:14] (R81, R84). -/
def rsvField (w : U64) : BitVec 50 := w.extractLsb' 14 50

/-- The format L rows of the opcode map (R85, R86). -/
def formatL (opc : Byte) : Option (Nat → Instr) :=
  if opc = 0x02 then some .ins
  else if opc = 0x32 then some .cxor
  else none

/-- The format N rows of the opcode map (R85, R86). -/
def formatN (opc : Byte) : Option Instr :=
  match opc.toNat with
  | 0x00 => some .nop
  | 0x01 => some .init
  | 0x03 => some .mix
  | 0x10 => some .h64
  | 0x11 => some .h128
  | 0x12 => some .h256
  | 0x20 => some .sec128
  | 0x21 => some .sec256
  | 0x22 => some .sec512
  | 0x30 => some .cinit
  | 0x31 => some .cgen
  | _ => none

/-- The decoder of R89, with the reason of each ILLEGAL. -/
def decodeWord (w : U64) : Except Illegal Instr :=
  if rsvField w ≠ 0 then .error .reservedBits
  else
    match formatL (opcField w) with
    | some cmd =>
      if dataMax < (lenField w).toNat then .error .lengthOutOfRange
      else .ok (cmd (lenField w).toNat)
    | none =>
      match formatN (opcField w) with
      | some i => if lenField w ≠ 0 then .error .lengthOnFormatN else .ok i
      | none => .error .unassignedOpcode

/-- `decode` of R89: a command, or `none` for ILLEGAL. -/
def decode (w : U64) : Option Instr :=
  match decodeWord w with
  | .ok i => some i
  | .error _ => none

/-- OPC of a command (R86). -/
def opcodeOf : Instr → Byte
  | .nop => 0x00
  | .init => 0x01
  | .ins _ => 0x02
  | .mix => 0x03
  | .h64 => 0x10
  | .h128 => 0x11
  | .h256 => 0x12
  | .sec128 => 0x20
  | .sec256 => 0x21
  | .sec512 => 0x22
  | .cinit => 0x30
  | .cgen => 0x31
  | .cxor _ => 0x32

/-- LEN of a command, 0 for format N (R83, R85). -/
def lengthOf : Instr → Nat
  | .ins len => len
  | .cxor len => len
  | .nop => 0
  | .init => 0
  | .mix => 0
  | .h64 => 0
  | .h128 => 0
  | .h256 => 0
  | .sec128 => 0
  | .sec256 => 0
  | .sec512 => 0
  | .cinit => 0
  | .cgen => 0

/-- The command word of a well-formed command: RSV = 0, then LEN, then OPC (R81, R85). -/
def encode (i : Instr) : U64 :=
  (0 : BitVec 50) ++ BitVec.ofNat 6 (lengthOf i) ++ opcodeOf i

/-- The mnemonics of R94, in lower case, for the commands that take no operand. -/
def plainMnemonic (name : String) : Option Instr :=
  if name = "nop" then some .nop
  else if name = "init" then some .init
  else if name = "mix" then some .mix
  else if name = "h64" then some .h64
  else if name = "h128" then some .h128
  else if name = "h256" then some .h256
  else if name = "sec128" then some .sec128
  else if name = "sec256" then some .sec256
  else if name = "sec512" then some .sec512
  else if name = "cinit" then some .cinit
  else if name = "cgen" then some .cgen
  else none

/-- The mnemonics of R94 for the commands that take LEN. -/
def lengthMnemonic (name : String) : Option (Nat → Instr) :=
  if name = "ins" then some .ins
  else if name = "cxor" then some .cxor
  else none

/-- The assembler of R94 on a mnemonic and its operand's value: it rejects an unknown mnemonic, a missing
or unwanted operand, and a LEN with no encoding. -/
def assemble (name : String) (operand : Option Nat) : Option U64 :=
  match operand with
  | none => (plainMnemonic name).map encode
  | some len =>
    match lengthMnemonic name with
    | some cmd => if (cmd len).wellFormed then some (encode (cmd len)) else none
    | none => none

/-- The host's fixed name: the command the decoder reads from a table word of `nbits` bits, every bit
above `nbits` zero. A command word has 64 bits, one register write (R80); a longer number is no word. -/
def decodeTableWord (nbits w : Nat) : Option Instr :=
  if w % 2 ^ nbits < 2 ^ 64 then decode (BitVec.ofNat 64 (w % 2 ^ nbits)) else none

end Sys2Proof
end

