-- ==== Sys2Proof/Machine/State.lean ====
section
/-! DEFINITION. The state of the block (spec 10_state.md) and of the events that reach it, the reasons a
step can stop, and the state after reset (spec 70_reset_and_hazards.md R260). -/

namespace Sys2Proof.Machine

open Sys2Proof

/-- STATUS.ERR's result codes (R35, R230). Codes 6 to 15 are never produced, so they are no constructor. -/
inductive ErrCode where
  /-- 0: the command succeeded. -/
  | ok
  /-- 1: `decode` rejected the word. -/
  | illegal
  /-- 2: an accumulator command with ACC.valid = 0. -/
  | noAcc
  /-- 3: INS would carry ACC.count past 2^64 − 1. -/
  | overflow
  /-- 4: CGEN or CXOR with CIPH.valid = 0. -/
  | noCipher
  /-- 5: an accumulator command with ACC.ovf = 1. -/
  | faulted
  deriving DecidableEq, Repr

/-- The accumulator's data, HashState (R22 to R24). Its two bits `ACC.valid` and `ACC.ovf` (R25) stand in
`State`, so that `copy(ACC)` (R17, R51) is a value of this type. -/
structure Acc where
  /-- `ACC.lane[0..3]` (R22). -/
  lane : Vector U64 4
  /-- `ACC.count`, the number of bytes absorbed since INIT (R23). -/
  count : U64
  /-- `ACC.pend[0..31]`; bytes at `fill` and above are stale (R24). -/
  pend : Vector Byte 32
  /-- `ACC.fill`, in 0..31 between commands (R24). -/
  fill : Nat
  deriving DecidableEq, Repr

/-- A cipher instance, CipherState (R26). `CIPH.valid` stands in `State`; the secure finalizer's private
instance (R182) has no valid bit. -/
structure Cipher where
  /-- `key[0..7]` (R26). -/
  key : Vector U32 8
  /-- `nonce[0..2]`; `nonce[2]` is accepted and unused (R26, R201). -/
  nonce : Vector U32 3
  /-- `ctr`, the block counter (R26). -/
  ctr : U64
  /-- `st[0..15]`, the permutation's input state (R26). -/
  st : Vector U32 16
  /-- `ks[0..63]`, the keystream buffer (R26). -/
  ks : Vector Byte 64
  /-- `cur`, the cursor, in 0..64 (R26). -/
  cur : Nat
  deriving DecidableEq, Repr

/-- One event of the block's total order (R68, R72): a host access, a turn of the core, or reset. Which
events happen, and in which order, is the environment's choice (log entry 2). -/
inductive Event where
  /-- `BusWrite(off, width, v)`, `width` in bytes (R17, R61, R63). -/
  | busWrite (off width : Nat) (v : U64)
  /-- `BusRead(off, width)`, `width` in bytes (R17, R62, R63). -/
  | busRead (off width : Nat)
  /-- The core's turn: its step, if the step is enabled (R101). -/
  | core
  /-- The reset input (R260, R261). -/
  | reset
  deriving DecidableEq, Repr

/-- The state of the block, and the model's own two fields of the host side, `agenda` and `replies`.
ACC_VALID, CIPH_VALID and OVF of STATUS mirror `accValid`, `ciphValid` and `accOvf` and are stored once
(R31 to R33); the views LANE0..3, COUNT, FILL, CCTR and CCUR, and the constant ID, are computed (R28, R44 to R48). -/
structure State where
  /-- SEED (R37). -/
  seed : U64
  /-- DATA0..DATA3 (R38). -/
  data : Vector U64 4
  /-- KEY0..KEY3 (R39). -/
  key : Vector U64 4
  /-- NONCE0 (R40). -/
  nonce0 : U64
  /-- NONCE1[31:0]; bits 63:32 do not exist and read 0 (R41). -/
  nonce1 : U32
  /-- RES0..RES7 (R43). -/
  res : Vector U64 8
  /-- STATUS.BUSY (R30). -/
  busy : Bool
  /-- STATUS.WIGN (R34). -/
  wign : Bool
  /-- STATUS.ERR (R35). -/
  err : ErrCode
  /-- CMDQ, the issued command word, hidden (R36, R50). -/
  cmdq : U64
  /-- ACC.valid (R25). -/
  accValid : Bool
  /-- ACC.ovf, the sticky overflow fault (R25, R233). -/
  accOvf : Bool
  /-- ACC.lane, ACC.count, ACC.pend and ACC.fill (R22 to R24). -/
  acc : Acc
  /-- CIPH.valid (R26). -/
  ciphValid : Bool
  /-- CIPH.key, nonce, ctr, st, ks and cur (R26). -/
  ciph : Cipher
  /-- The MODEL's own: the events still to come, first first. Empty: the host is silent. -/
  agenda : List Event
  /-- The MODEL's own: the values the block has returned to the host's reads, oldest first. -/
  replies : List U64
  deriving DecidableEq, Repr

/-- Why a step faults. -/
inductive Fault where
  /-- Raised by a host access that R63 does not define: not 8 bytes wide, misaligned, or outside the
  window. SAFE: R63 has a model treat it "as a fault of the host's step"; the block's state does not change. -/
  | busError (off width : Nat)
  deriving DecidableEq, Repr

/-- Why a step refuses. -/
inductive Refusal where
  /-- Raised by an arm of `exec` whose command has no meaning yet; no arm of this model is one. SAFE. -/
  | notModelled (mnemonic : String)
  deriving DecidableEq, Repr

/-- ACC after reset, without its two bits (R260). -/
def Acc.reset : Acc where
  lane := Vector.replicate 4 0
  count := 0
  pend := Vector.replicate 32 0
  fill := 0

/-- CIPH after reset, without its valid bit (R260). -/
def Cipher.reset : Cipher where
  key := Vector.replicate 8 0
  nonce := Vector.replicate 3 0
  ctr := 0
  st := Vector.replicate 16 0
  ks := Vector.replicate 64 0
  cur := ksBytes

/-- The machine right after reset (R260). The host has done nothing yet. -/
def State.reset : State where
  seed := seedDefault
  data := Vector.replicate 4 0
  key := Vector.replicate 4 0
  nonce0 := 0
  nonce1 := 0
  res := Vector.replicate 8 0
  busy := false
  wign := false
  err := .ok
  cmdq := 0
  accValid := false
  accOvf := false
  acc := Acc.reset
  ciphValid := false
  ciph := Cipher.reset
  agenda := []
  replies := []

end Sys2Proof.Machine
end

