-- ==== Sys2Proof/Machine/Operands.lean ====
section
/-! DEFINITION. Operators, byte strings and the implicit operands of the commands
(spec 00_scope.md R15, R16; 10_state.md R38 to R41; 30_encoding.md R93). -/

namespace Sys2Proof.Machine

open Sys2Proof

/-- `rotl64(x, r)` for 0 < r < 64 (R15). -/
def rotl64 (x : U64) (r : Nat) : U64 := (x <<< r) ||| (x >>> (64 - r))

/-- `rotl32(x, r)` for 0 < r < 32 (R15). -/
def rotl32 (x : U32) (r : Nat) : U32 := (x <<< r) ||| (x >>> (32 - r))

/-- The number whose little-endian bytes are `s` (R16). -/
def leNat : List Byte → Nat
  | [] => 0
  | b :: s => b.toNat + 256 * leNat s

/-- `le64(s)`: the `u64` whose byte k is `s[k]` (R16). -/
def le64 (s : List Byte) : U64 := BitVec.ofNat 64 (leNat s)

/-- `le32(s)`: the `u32` whose byte k is `s[k]` (R16). -/
def le32 (s : List Byte) : U32 := BitVec.ofNat 32 (leNat s)

/-- `tobytes_le(v, n)`: the n bytes whose byte k is `v[8k+7:8k]` (R16). -/
def toBytesLe {w : Nat} (v : BitVec w) (n : Nat) : List Byte :=
  (List.range n).map fun k => v.extractLsb' (8 * k) 8

/-- `zeros(n)` (R16). -/
def zeros (n : Nat) : List Byte := List.replicate n 0

/-- `s[i..j)` (R16). -/
def slice (s : List Byte) (i j : Nat) : List Byte := (s.drop i).take (j - i)

/-- `buf[i .. i+len(s)) <- s`, the assignment to a slice of a byte array (R141). -/
def overwrite {n : Nat} (buf : Vector Byte n) (i : Nat) (s : List Byte) : Vector Byte n :=
  Vector.ofFn fun k => if i ≤ k.val then (s[k.val - i]?).getD buf[k] else buf[k]

/-- The bytes of four data words, in order, each little-endian (R38). -/
def dataBytes (d : Vector U64 4) : List Byte :=
  toBytesLe d[0] 8 ++ toBytesLe d[1] 8 ++ toBytesLe d[2] 8 ++ toBytesLe d[3] 8

/-- DBYTES, the 32-byte data operand (R38). -/
def dbytes (s : State) : List Byte := dataBytes s.data

/-- `keyword(0..7)`: the low half of KEYj, then its high half (R39). -/
def keyWords (s : State) : Vector U32 8 :=
  Vector.ofFn fun k => (s.key[k.val / 2]).extractLsb' (32 * (k.val % 2)) 32

/-- `nonceword(0..2)`: the halves of NONCE0, then NONCE1[31:0] (R40, R41). -/
def nonceWords (s : State) : Vector U32 3 :=
  #v[s.nonce0.extractLsb' 0 32, s.nonce0.extractLsb' 32 32, s.nonce1]

end Sys2Proof.Machine
end

