-- ==== Sys2Proof/Machine/Flags.lean ====
section
/-! DEFINITION. The STATUS word (spec 10_state.md R29 to R35). The block has no arithmetic flags and no
condition codes (R49): a command's result code and these bits are all it flags. -/

namespace Sys2Proof.Machine

open Sys2Proof

/-- The 4-bit code of STATUS.ERR (R230). -/
def errBits : ErrCode → BitVec 4
  | .ok => 0
  | .illegal => 1
  | .noAcc => 2
  | .overflow => 3
  | .noCipher => 4
  | .faulted => 5

/-- One flag as a bit. -/
def flagBit (b : Bool) : BitVec 1 := if b then 1 else 0

/-- The word STATUS reads (R29): from bit 0 up BUSY, ACC_VALID, CIPH_VALID, OVF, WIGN, three reserved
zeros, the four bits of ERR, and reserved zeros to bit 63. -/
def statusWord (s : State) : U64 :=
  (0 : BitVec 52) ++ errBits s.err ++ (0 : BitVec 3) ++ flagBit s.wign ++ flagBit s.accOvf
    ++ flagBit s.ciphValid ++ flagBit s.accValid ++ flagBit s.busy

end Sys2Proof.Machine
end

