-- ==== Sys2Proof/Machine/Ops.lean ====
section
/-! DEFINITION. The shared operations of every command (spec 40_command_interface.md): issue, fetch, the
checks before the body, raising an error, finishing a command, and writing results.
Raising an error is this hardware's whole exception mechanism: no state is saved, no mode changes, nothing
is jumped to, and there is no return (60_exceptions.md R232, R237, R238). -/

namespace Sys2Proof.Machine

open Sys2Proof

/-- `issue(v)`: the effect of a write to CMD while BUSY = 0 (R100). -/
def issue (v : U64) (s : State) : State := { s with cmdq := v, busy := true }

/-- The word the core performs next: the block's only fetch (R101, R75). -/
def fetch (s : State) : U64 := s.cmdq

/-- `raise Error(code)`: STATUS.ERR takes the code and the command ends (R232). -/
def raiseError (code : ErrCode) (s : State) : State := { s with err := code }

/-- A body that does not raise finishes with STATUS.ERR <- OK (R104). -/
def complete (s : State) : State := { s with err := .ok }

/-- The end of a core step: BUSY <- 0 (R101). -/
def clearBusy (s : State) : State := { s with busy := false }

/-- The checks of an accumulator command, NOACC before FAULTED (R104). -/
def accCheck (s : State) : Option ErrCode :=
  if s.accValid = false then some .noAcc
  else if s.accOvf = true then some .faulted
  else none

/-- The check of CGEN and CXOR (R104). -/
def cipherCheck (s : State) : Option ErrCode :=
  if s.ciphValid = false then some .noCipher else none

/-- R104: the body runs only after the checks; the first that fails raises and ends the command. -/
def guarded (failed : Option ErrCode) (body : State → State) (s : State) : State :=
  match failed with
  | some code => raiseError code s
  | none => body s

/-- RES0.. take the given words; a RES register past them keeps its value (R43, R268). -/
def writeRes (words : List U64) (s : State) : State :=
  { s with res := Vector.ofFn fun k => (words[k.val]?).getD s.res[k] }

/-- ACC's data takes a new value (R22: INIT and INS alone do this). -/
def setAcc (a : Acc) (s : State) : State := { s with acc := a }

/-- CIPH's data takes a new value (R206, R210). -/
def setCipher (e : Cipher) (s : State) : State := { s with ciph := e }

/-- The performance of a word `decode` rejects: STATUS.ERR <- ILLEGAL and nothing else (R103). -/
def performIllegal (s : State) : State := raiseError .illegal s

end Sys2Proof.Machine
end

