-- ==== Sys2Proof/Machine/Control.lean ====
section
/-! DEFINITION. NOP (spec 40_command_interface.md R105). -/

namespace Sys2Proof.Machine

open Sys2Proof

/-- NOP (R105): `skip`, then STATUS.ERR <- OK. -/
def performNop (s : State) : State := complete s

/-- The meaning of NOP (R105). -/
def execNop (s : State) : Host.Outcome State Fault Refusal := .next (performNop s)

end Sys2Proof.Machine
end

