-- ==== Sys2Proof/Machine/Bus.lean ====
section
/-! DEFINITION. The register window and the host's accesses to it (spec 10_state.md R27 to R48;
20_memory.md R60 to R76). The window is the block's whole address space: there is no memory behind it. -/

namespace Sys2Proof.Machine

open Sys2Proof

/-- A register of the window (R27). -/
inductive Reg where
  /-- ID, 0x00 (R28). -/
  | id
  /-- STATUS, 0x08 (R29). -/
  | status
  /-- CMD, 0x10 (R36). -/
  | cmd
  /-- SEED, 0x18 (R37). -/
  | seed
  /-- DATA0..DATA3, 0x20 to 0x38 (R38). -/
  | data (k : Fin 4)
  /-- KEY0..KEY3, 0x40 to 0x58 (R39). -/
  | key (k : Fin 4)
  /-- NONCE0, 0x60 (R40). -/
  | nonce0
  /-- NONCE1, 0x68 (R41). -/
  | nonce1
  /-- The reserved offsets 0x70 and 0x78 (R42). -/
  | reserved (k : Fin 2)
  /-- RES0..RES7, 0x80 to 0xB8 (R43). -/
  | res (k : Fin 8)
  /-- LANE0..LANE3, 0xC0 to 0xD8 (R44). -/
  | lane (k : Fin 4)
  /-- COUNT, 0xE0 (R45). -/
  | count
  /-- FILL, 0xE8 (R46). -/
  | fill
  /-- CCTR, 0xF0 (R47). -/
  | cctr
  /-- CCUR, 0xF8 (R48). -/
  | ccur
  deriving DecidableEq, Repr

/-- The register of 8-byte slot `k` of the window (R27). -/
def regOfSlot : Nat → Option Reg
  | 0 => some .id
  | 1 => some .status
  | 2 => some .cmd
  | 3 => some .seed
  | 4 => some (.data 0)
  | 5 => some (.data 1)
  | 6 => some (.data 2)
  | 7 => some (.data 3)
  | 8 => some (.key 0)
  | 9 => some (.key 1)
  | 10 => some (.key 2)
  | 11 => some (.key 3)
  | 12 => some .nonce0
  | 13 => some .nonce1
  | 14 => some (.reserved 0)
  | 15 => some (.reserved 1)
  | 16 => some (.res 0)
  | 17 => some (.res 1)
  | 18 => some (.res 2)
  | 19 => some (.res 3)
  | 20 => some (.res 4)
  | 21 => some (.res 5)
  | 22 => some (.res 6)
  | 23 => some (.res 7)
  | 24 => some (.lane 0)
  | 25 => some (.lane 1)
  | 26 => some (.lane 2)
  | 27 => some (.lane 3)
  | 28 => some .count
  | 29 => some .fill
  | 30 => some .cctr
  | 31 => some .ccur
  | _ => none

/-- The register an access reaches: an access is legal if it is 8 bytes wide, at a multiple of 8, and
inside the window (R63). -/
def regAt (off width : Nat) : Option Reg :=
  if width = 8 ∧ off % 8 = 0 then regOfSlot (off / 8) else none

/-- `offset(NAME)` (R27, R95). -/
def offsetOf : Reg → Nat
  | .id => 0x00
  | .status => 0x08
  | .cmd => 0x10
  | .seed => 0x18
  | .data k => 0x20 + 8 * k.val
  | .key k => 0x40 + 8 * k.val
  | .nonce0 => 0x60
  | .nonce1 => 0x68
  | .reserved k => 0x70 + 8 * k.val
  | .res k => 0x80 + 8 * k.val
  | .lane k => 0xC0 + 8 * k.val
  | .count => 0xE0
  | .fill => 0xE8
  | .cctr => 0xF0
  | .ccur => 0xF8

/-- ID's hardwired value: "JSHASH" and the source revision 7 (R28). -/
def idValue : U64 := 0x4A53484153480007

/-- A view of ACC reads 0 while ACC.valid = 0 (R44 to R46). -/
def accView (s : State) (v : U64) : U64 := if s.accValid = true then v else 0

/-- A view of CIPH reads 0 while CIPH.valid = 0 (R47, R48). -/
def cipherView (s : State) (v : U64) : U64 := if s.ciphValid = true then v else 0

/-- The value a register reads (R28 to R48). FILL shows `fill` in bits 5:0 and CCUR shows `cur` in bits
6:0, every other bit 0 (R46, R48). -/
def readReg (s : State) : Reg → U64
  | .id => idValue
  | .status => statusWord s
  | .cmd => 0
  | .seed => s.seed
  | .data k => s.data[k]
  | .key k => s.key[k]
  | .nonce0 => s.nonce0
  | .nonce1 => s.nonce1.zeroExtend 64
  | .reserved _ => 0
  | .res k => s.res[k]
  | .lane k => accView s s.acc.lane[k]
  | .count => accView s s.acc.count
  | .fill => accView s ((BitVec.ofNat 6 s.acc.fill).zeroExtend 64)
  | .cctr => cipherView s s.ciph.ctr
  | .ccur => cipherView s ((BitVec.ofNat 7 s.ciph.cur).zeroExtend 64)

/-- The effect of a legal write while BUSY = 0 (R61). -/
def writeReg (s : State) (r : Reg) (v : U64) : State :=
  match r with
  | .seed => { s with seed := v }
  | .data k => { s with data := s.data.set k v }
  | .key k => { s with key := s.key.set k v }
  | .nonce0 => { s with nonce0 := v }
  | .nonce1 => { s with nonce1 := v.extractLsb' 0 32 }
  | .cmd => issue v s
  | .status => if v.getLsbD 4 then { s with wign := false } else s
  | .id => s
  | .reserved _ => s
  | .res _ => s
  | .lane _ => s
  | .count => s
  | .fill => s
  | .cctr => s
  | .ccur => s

/-- `BusWrite(off, width, v)`: an illegal access faults (R63, R235), a write while BUSY = 1 is ignored but
for WIGN (R64), any other has the effect of R61. -/
def busWrite (off width : Nat) (v : U64) (s : State) : Host.Outcome State Fault Refusal :=
  match regAt off width with
  | none => .fault (.busError off width)
  | some r => if s.busy = true then .next { s with wign := true } else .next (writeReg s r v)

/-- `BusRead(off, width)`: an illegal access faults (R63); a legal one returns the register's value and
changes no state of the block, whatever BUSY is (R62, R65). -/
def busRead (off width : Nat) (s : State) : Host.Outcome State Fault Refusal :=
  match regAt off width with
  | none => .fault (.busError off width)
  | some r => .next { s with replies := s.replies ++ [readReg s r] }

/-- The reset input: every register and all internal state take their reset values, an outstanding command
is abandoned (R260, R261). The host keeps its own events to come and the values it has read. -/
def resetBlock (s : State) : State := { State.reset with agenda := s.agenda, replies := s.replies }

/-- Byte lane `k` of a 64-bit access: bits 8k+7:8k (R66). -/
def byteLane (v : U64) (k : Nat) : Byte := v.extractLsb' (8 * k) 8

/-- One byte of the window as the bus carries it; no value outside the window (R63, R66). -/
def windowByte (s : State) (a : Nat) : Option Byte :=
  (regOfSlot (a / 8)).map fun r => byteLane (readReg s r) (a % 8)

/-- The window offset of a host address, for a window at `WIN_BASE`; an address below the window is none
of the block's (R70, R241). -/
def windowOffset (P : Params) (addr : Nat) : Option Nat :=
  if P.winBase ≤ addr then some (addr - P.winBase) else none

/-- The host address of a register (R70). -/
def hostAddress (P : Params) (r : Reg) : Nat := P.winBase + offsetOf r

end Sys2Proof.Machine
end

