-- ==== Sys2Proof/Machine/Primitives.lean ====
section
/-! DEFINITION. The seed expander, the mix primitive and MIX (spec 41_primitives.md R120 to R126). -/

namespace Sys2Proof.Machine

open Sys2Proof

/-- `se_next(se)`: one draw, and the running state after it (R120). -/
def seNext (P : Params) (se : U64) : U64 × U64 :=
  let se' := se + P.seGamma
  let z := (se' ^^^ (se' >>> P.seS1)) * P.seM1
  let z := (z ^^^ (z >>> P.seS2)) * P.seM2
  (z ^^^ (z >>> P.seS3), se')

/-- `expand(seed)`: four draws, draw k to lane k (R121). -/
def expand (P : Params) (seed : U64) : Vector U64 4 :=
  let d0 := seNext P seed
  let d1 := seNext P d0.2
  let d2 := seNext P d1.2
  let d3 := seNext P d2.2
  #v[d0.1, d1.1, d2.1, d3.1]

/-- `a *128 b`, the exact product of two `u64` values (R15). -/
def mul128 (a b : U64) : U128 := a.zeroExtend 128 * b.zeroExtend 128

/-- `mix(a, b)` (R123). -/
def mix (P : Params) (a b : U64) : U64 :=
  let p := mul128 a (b ^^^ P.mixK)
  let lo : U64 := p.extractLsb' 0 64
  let hi : U64 := p.extractLsb' 64 64
  a ^^^ b ^^^ lo ^^^ hi

/-- MIX (R124): RES0 <- mix(DATA0, DATA1). It has no check beyond legality. -/
def performMix (P : Params) (s : State) : State :=
  complete (writeRes [mix P s.data[0] s.data[1]] s)

/-- The meaning of MIX (R124). -/
def execMix (s : State) : Host.Outcome State Fault Refusal := .next (performMix Config.params s)

end Sys2Proof.Machine
end

