-- ==== Sys2Proof/Machine/Keystream.lean ====
section
/-! DEFINITION. The stream cipher: CINIT, CGEN and CXOR (spec 45_stream_cipher.md R200 to R213). -/

namespace Sys2Proof.Machine

open Sys2Proof

/-- `init_state(K, N, ctr)`: the 16 input words; nonce word 2 enters none (R200, R201). -/
def initState (P : Params) (k : Vector U32 8) (n : Vector U32 3) (ctr : U64) : Vector U32 16 :=
  #v[P.cc[0], P.cc[1], P.cc[2], P.cc[3], k[0], k[1], k[2], k[3], k[4], k[5], k[6], k[7],
    ctr.extractLsb' 0 32, ctr.extractLsb' 32 32, n[0], n[1]]

/-- The quarter-round on words a, b, c, d of x (R202). -/
def quarterRound (x : Vector U32 16) (a b c d : Fin 16) : Vector U32 16 :=
  let x := x.set a (x[a] + x[b])
  let x := x.set d (rotl32 (x[d] ^^^ x[a]) 16)
  let x := x.set c (x[c] + x[d])
  let x := x.set b (rotl32 (x[b] ^^^ x[c]) 12)
  let x := x.set a (x[a] + x[b])
  let x := x.set d (rotl32 (x[d] ^^^ x[a]) 8)
  let x := x.set c (x[c] + x[d])
  x.set b (rotl32 (x[b] ^^^ x[c]) 7)

/-- One double-round: the column pass, then the diagonal pass (R203). -/
def doubleRound (x : Vector U32 16) : Vector U32 16 :=
  let x := quarterRound x 0 4 8 12
  let x := quarterRound x 1 5 9 13
  let x := quarterRound x 2 6 10 14
  let x := quarterRound x 3 7 11 15
  let x := quarterRound x 0 5 10 15
  let x := quarterRound x 1 6 11 12
  let x := quarterRound x 2 7 8 13
  quarterRound x 3 4 9 14

/-- `n` double-rounds (R203). -/
def doubleRounds : Nat → Vector U32 16 → Vector U32 16
  | 0, x => x
  | n + 1, x => doubleRounds n (doubleRound x)

/-- `block_fn(st)`: ten double-rounds, the words before them added back, and the sixteen sums serialised
little-endian, four bytes each (R203). -/
def blockFn (st : Vector U32 16) : Vector Byte 64 :=
  let x := doubleRounds 10 st
  Vector.ofFn fun k => (x[k.val / 4] + st[k.val / 4]).extractLsb' (8 * (k.val % 4)) 8

/-- `cipher_new(K, N, ctr)` (R205). -/
def cipherNew (P : Params) (k : Vector U32 8) (n : Vector U32 3) (ctr : U64) : Cipher where
  key := k
  nonce := n
  ctr := ctr
  st := initState P k n ctr
  ks := Vector.replicate 64 0
  cur := ksBytes

/-- `cipher_gen(E)`: the next keystream block; the counter wraps modulo 2^64 (R204). -/
def cipherGen (e : Cipher) : Cipher :=
  let ctr := e.ctr + 1
  { e with
    ks := blockFn e.st
    ctr := ctr
    st := (e.st.set 12 (ctr.extractLsb' 0 32)).set 13 (ctr.extractLsb' 32 32)
    cur := 0 }

/-- The regeneration of R207: a block is generated when the cursor has reached 64. -/
def refill (e : Cipher) : Cipher := if e.cur = ksBytes then cipherGen e else e

/-- `cipher_xor(E, s)`: the instance afterwards and the output bytes (R207). The cursor is below 64 where
the buffer is read, in every state within R26's invariant; elsewhere a byte past the buffer reads 0. -/
def cipherXor : Cipher → List Byte → Cipher × List Byte
  | e, [] => (e, [])
  | e, b :: s =>
    let e := refill e
    let r := cipherXor { e with cur := e.cur + 1 } s
    (r.1, (b ^^^ (e.ks[e.cur]?).getD 0) :: r.2)

/-- The 64-bit words 0 to n − 1 of a byte string, little-endian (R43). -/
def leWords (n : Nat) (s : List Byte) : List U64 :=
  (List.range n).map fun k => le64 (slice s (8 * k) (8 * k + 8))

/-- CINIT (R210): CIPH <- cipher_new(K, N, 1), and CIPH.valid <- 1. -/
def performCinit (P : Params) (s : State) : State :=
  complete { setCipher (cipherNew P (keyWords s) (nonceWords s) ctrInit) s with ciphValid := true }

/-- The meaning of CINIT (R210). -/
def execCinit (s : State) : Host.Outcome State Fault Refusal := .next (performCinit Config.params s)

/-- CGEN (R211): the next keystream block, shown in RES0..RES7. -/
def performCgen (s : State) : State :=
  guarded (cipherCheck s)
    (fun s =>
      let e := cipherGen s.ciph
      complete (writeRes (leWords 8 e.ks.toList) (setCipher e s)))
    s

/-- The meaning of CGEN (R211). -/
def execCgen (s : State) : Host.Outcome State Fault Refusal := .next (performCgen s)

/-- CXOR (R212): ILLEGAL for a LEN with no encoding, then NOCIPHER, then DBYTES[0..LEN) XORed with
keystream into RES0..RES3, zeros after the last output byte. -/
def performCxor (len : Nat) (s : State) : State :=
  if dataMax < len then raiseError .illegal s
  else
    guarded (cipherCheck s)
      (fun s =>
        let r := cipherXor s.ciph (slice (dbytes s) 0 len)
        complete (writeRes (leWords 4 (r.2 ++ zeros (dataMax - len))) (setCipher r.1 s)))
      s

/-- The meaning of CXOR (R212). -/
def execCxor (len : Nat) (s : State) : Host.Outcome State Fault Refusal := .next (performCxor len s)

end Sys2Proof.Machine
end

