-- ==== Sys2Proof/Machine/Accumulator.lean ====
section
/-! DEFINITION. The streaming accumulator: INIT and INS (spec 42_accumulator.md R140 to R149). -/

namespace Sys2Proof.Machine

open Sys2Proof

/-- `process_32bytes(A, blk)`: word i of the block is mixed into lane i (R142). -/
def process32 (P : Params) (a : Acc) (blk : List Byte) : Acc :=
  { a with lane := Vector.ofFn fun i => mix P a.lane[i] (le64 (slice blk (8 * i.val) (8 * i.val + 8))) }

/-- The top-up of R141: a buffer that already holds data takes bytes up to 32, and a full buffer is
processed as one block. The second component is i, the number of bytes taken. -/
def topUp (P : Params) (a : Acc) (s : List Byte) : Acc × Nat :=
  if 0 < a.fill then
    let take := min (blockBytes - a.fill) s.length
    let b := { a with pend := overwrite a.pend a.fill (slice s 0 take), fill := a.fill + take }
    if b.fill = blockBytes then ({ process32 P b b.pend.toList with fill := 0 }, take) else (b, take)
  else (a, 0)

/-- The while loop of R141, run for `n` spans of 32 bytes, directly from the input. -/
def processSpans (P : Params) : Nat → Acc → List Byte → Acc
  | 0, a, _ => a
  | n + 1, a, s => processSpans P n (process32 P a (slice s 0 blockBytes)) (s.drop blockBytes)

/-- The last step of R141: bytes left over go to the front of the pending buffer. -/
def keepTail (a : Acc) (tail : List Byte) : Acc :=
  if tail = [] then a else { a with pend := overwrite a.pend 0 tail, fill := tail.length }

/-- `absorb(A, s)` for a byte string of any length (R141). -/
def absorb (P : Params) (a : Acc) (s : List Byte) : Acc :=
  if s = [] then a
  else
    let t := topUp P a s
    let rest := s.drop t.2
    let n := rest.length / blockBytes
    let b := keepTail (processSpans P n t.1 rest) (rest.drop (blockBytes * n))
    { b with count := b.count + BitVec.ofNat 64 s.length }

/-- ACC as INIT constructs it from a seed (R140). -/
def initAcc (P : Params) (seed : U64) : Acc where
  lane := expand P seed
  count := 0
  pend := Vector.replicate 32 0
  fill := 0

/-- INIT (R140). It is legal whatever ACC.valid and ACC.ovf are. -/
def performInit (P : Params) (s : State) : State :=
  complete { setAcc (initAcc P s.seed) s with accValid := true, accOvf := false }

/-- The meaning of INIT (R140). -/
def execInit (s : State) : Host.Outcome State Fault Refusal := .next (performInit Config.params s)

/-- INS (R143): ILLEGAL for a LEN with no encoding, then NOACC and FAULTED, then OVERFLOW on the exact sum
(R145), then the absorption of DBYTES[0..LEN). -/
def performIns (P : Params) (len : Nat) (s : State) : State :=
  if dataMax < len then raiseError .illegal s
  else
    guarded (accCheck s)
      (fun s =>
        if 2 ^ 64 - 1 < s.acc.count.toNat + len then raiseError .overflow { s with accOvf := true }
        else complete (setAcc (absorb P s.acc (slice (dbytes s) 0 len)) s))
      s

/-- The meaning of INS (R143). -/
def execIns (len : Nat) (s : State) : Host.Outcome State Fault Refusal :=
  .next (performIns Config.params len s)

end Sys2Proof.Machine
end

