-- ==== Sys2Proof/Machine/Standard.lean ====
section
/-! DEFINITION. The standard finalizer: H64, H128 and H256 (spec 43_standard_finalizer.md R160 to R169). -/

namespace Sys2Proof.Machine

open Sys2Proof

/-- `pad_final(A)`: a copy of A with its pending bytes, padded with zeros, absorbed as one block; its count
stays the true unpadded length (R160). -/
def padFinal (P : Params) (a : Acc) : Acc :=
  if 0 < a.fill then process32 P a (slice a.pend.toList 0 a.fill ++ zeros (blockBytes - a.fill)) else a

/-- `xmix(x, y, r)`, one cross-mix pairing (R162). -/
def xmix (P : Params) (x y : U64) (r : Nat) : U64 × U64 := P.xmixUpd x y (mix P x y) r

/-- `fin256(A)` (R161): length injection, seasoning, and the four pairings in order. -/
def fin256 (P : Params) (a : Acc) : Vector U64 4 :=
  let c := padFinal P a
  let x0 := mix P c.lane[0] c.count
  let x1 := mix P c.lane[1] (c.count >>> 32)
  let x2 := mix P c.lane[2] P.phi
  let x3 := mix P c.lane[3] P.phi2
  let p1 := xmix P x0 x1 11
  let p2 := xmix P x2 x3 23
  let p3 := xmix P p1.1 p2.2 31
  let p4 := xmix P p1.2 p2.1 43
  #v[p3.1, p4.1, p4.2, p3.2]

/-- `fin128(A)`: each half of the 256-bit result folded to one word (R163, 90_conflicts.md C1). -/
def fin128 (P : Params) (a : Acc) : Vector U64 2 :=
  let h := fin256 P a
  #v[h[0] ^^^ h[1], h[2] ^^^ h[3]]

/-- `fin64(A)` (R163). -/
def fin64 (P : Params) (a : Acc) : U64 :=
  let h := fin256 P a
  h[0] ^^^ h[1] ^^^ h[2] ^^^ h[3]

/-- H64 (R164): RES0 <- fin64(ACC). -/
def performH64 (P : Params) (s : State) : State :=
  guarded (accCheck s) (fun s => complete (writeRes [fin64 P s.acc] s)) s

/-- The meaning of H64 (R164). -/
def execH64 (s : State) : Host.Outcome State Fault Refusal := .next (performH64 Config.params s)

/-- H128 (R165): RES0..RES1 <- fin128(ACC). -/
def performH128 (P : Params) (s : State) : State :=
  guarded (accCheck s) (fun s => complete (writeRes (fin128 P s.acc).toList s)) s

/-- The meaning of H128 (R165). -/
def execH128 (s : State) : Host.Outcome State Fault Refusal := .next (performH128 Config.params s)

/-- H256 (R166): RES0..RES3 <- fin256(ACC). -/
def performH256 (P : Params) (s : State) : State :=
  guarded (accCheck s) (fun s => complete (writeRes (fin256 P s.acc).toList s)) s

/-- The meaning of H256 (R166). -/
def execH256 (s : State) : Host.Outcome State Fault Refusal := .next (performH256 Config.params s)

end Sys2Proof.Machine
end

