-- ==== Sys2Proof/Machine/Secure.lean ====
section
/-! DEFINITION. The secure finalizer: SEC128, SEC256 and SEC512 (spec 44_secure_finalizer.md R180 to R188). -/

namespace Sys2Proof.Machine

open Sys2Proof

/-- The 64-byte SecureBlock of a padded copy (R180). -/
def secureBlock (c : Acc) : List Byte :=
  toBytesLe c.lane[0] 8 ++ toBytesLe c.lane[1] 8 ++ toBytesLe c.lane[2] 8 ++ toBytesLe c.lane[3] 8
    ++ toBytesLe ((c.count.extractLsb' 0 32).zeroExtend 64) 8
    ++ toBytesLe ((c.count.extractLsb' 32 32).zeroExtend 64) 8
    ++ toBytesLe sbK0 8 ++ toBytesLe sbK1 8

/-- `secure(A, W, K, N)`: the SecureBlock encrypted by a fresh instance at counter 1, truncated to W words
(R181, R182). -/
def secure (P : Params) (a : Acc) (w : Nat) (k : Vector U32 8) (n : Vector U32 3) : List U64 :=
  leWords w (cipherXor (cipherNew P k n ctrInit) (secureBlock (padFinal P a))).2

/-- The shared shape of the secure commands: RES0..RES(W−1) <- secure(ACC, W, K, N) (R183 to R185). CIPH is
neither checked nor touched (R182). -/
def performSecure (P : Params) (w : Nat) (s : State) : State :=
  guarded (accCheck s)
    (fun s => complete (writeRes (secure P s.acc w (keyWords s) (nonceWords s)) s)) s

/-- SEC128 (R183): W = 2. -/
def performSec128 (P : Params) (s : State) : State := performSecure P 2 s

/-- The meaning of SEC128 (R183). -/
def execSec128 (s : State) : Host.Outcome State Fault Refusal := .next (performSec128 Config.params s)

/-- SEC256 (R184): W = 4. -/
def performSec256 (P : Params) (s : State) : State := performSecure P 4 s

/-- The meaning of SEC256 (R184). -/
def execSec256 (s : State) : Host.Outcome State Fault Refusal := .next (performSec256 Config.params s)

/-- SEC512 (R185): W = 8. -/
def performSec512 (P : Params) (s : State) : State := performSecure P 8 s

/-- The meaning of SEC512 (R185). -/
def execSec512 (s : State) : Host.Outcome State Fault Refusal := .next (performSec512 Config.params s)

end Sys2Proof.Machine
end

