-- ==== Sys2Proof/Machine/Dispatch.lean ====
section
/-! DEFINITION. One arm per command (spec 30_encoding.md R86): the body and checks of `perform(c)` (R104). -/

namespace Sys2Proof.Machine

open Sys2Proof

def exec (i : Instr) (s : State) : Host.Outcome State Fault Refusal :=
  match i with
  | .nop => Sys2Proof.Machine.execNop s
  | .init => Sys2Proof.Machine.execInit s
  | .ins len => Sys2Proof.Machine.execIns len s
  | .mix => Sys2Proof.Machine.execMix s
  | .h64 => Sys2Proof.Machine.execH64 s
  | .h128 => Sys2Proof.Machine.execH128 s
  | .h256 => Sys2Proof.Machine.execH256 s
  | .sec128 => Sys2Proof.Machine.execSec128 s
  | .sec256 => Sys2Proof.Machine.execSec256 s
  | .sec512 => Sys2Proof.Machine.execSec512 s
  | .cinit => Sys2Proof.Machine.execCinit s
  | .cgen => Sys2Proof.Machine.execCgen s
  | .cxor len => Sys2Proof.Machine.execCxor len s

end Sys2Proof.Machine
end

