-- ==== Sys2Proof/Machine/Cycle.lean ====
section
/-! DEFINITION. The core's one step and the block's events (spec 40_command_interface.md R101, R103;
20_memory.md R68, R72). -/

namespace Sys2Proof.Machine

open Sys2Proof

/-- `perform(decode(CMDQ))` (R101, R103, R104). -/
def performQueued (s : State) : Host.Outcome State Fault Refusal :=
  match decode (fetch s) with
  | some i => exec i s
  | none => .next (performIllegal s)

/-- The core's turn (R101): its step, enabled if and only if BUSY = 1, performs the issued command and
clears BUSY. With BUSY = 0 the block is idle and keeps its state (R244). -/
def coreTurn (s : State) : Host.Outcome State Fault Refusal :=
  if s.busy = true then
    match performQueued s with
    | .next t => .next (clearBusy t)
    | .fault r => .fault r
    | .refused r => .refused r
  else .next s

/-- One event of the block's total order (R68). -/
def runEvent (e : Event) (s : State) : Host.Outcome State Fault Refusal :=
  match e with
  | .busWrite off width v => busWrite off width v s
  | .busRead off width => busRead off width s
  | .core => coreTurn s
  | .reset => .next (resetBlock s)

/-- The next event happens; when the host is silent the core has the turn, which gives the weak fairness
R101 asks for. -/
def nextEvent (s : State) : Host.Outcome State Fault Refusal :=
  match s.agenda with
  | [] => coreTurn s
  | e :: rest => runEvent e { s with agenda := rest }

end Sys2Proof.Machine
end

