-- ==== Sys2Proof/Machine/Step.lean ====
section
/-! DEFINITION. The machine's step, and the placing of one command word where the next step performs it. -/

namespace Sys2Proof.Machine

open Sys2Proof

/-- One step of the system of R20: the next event of the total order of R68. -/
def step (s : State) : Host.Outcome State Fault Refusal := nextEvent s

/-- `s` with the command word `w` issued (R100) and the core next to move, so that the very next step
performs that word. Nothing else changes. Log entry 4. -/
def State.withFetchWord (s : State) (nbits w : Nat) : State :=
  { issue (BitVec.ofNat 64 (w % 2 ^ nbits)) s with agenda := .core :: s.agenda }

end Sys2Proof.Machine
end

