-- ==== Sys2Proof/Machine/HostPrograms.lean ====
section
/-! DEFINITION. The host-side operations and pseudo-instructions (spec 30_encoding.md R94 to R96), each as
the list of events it puts on the agenda. They are host software, not functions of the block (R6). -/

namespace Sys2Proof.Machine

open Sys2Proof

/-- `wr NAME, imm64` (R95). -/
def wr (r : Reg) (v : U64) : Event := .busWrite (offsetOf r) 8 v

/-- `rd NAME` (R95). -/
def rd (r : Reg) : Event := .busRead (offsetOf r) 8

/-- `cmd m` (R94, R95). -/
def cmd (i : Instr) : Event := wr .cmd (encode i)

/-- `wait`, where `polls` reads of STATUS come before the core's step and one after it (R95). How many do
is the block's latency LAT, which nothing fixes (R272). -/
def wait (polls : Nat) : List Event := List.replicate polls (rd .status) ++ [.core, rd .status]

/-- `b[32j .. min(32j+32, n))` for the first `n` values of j (R96). -/
def chunks : Nat → List Byte → List (List Byte)
  | 0, _ => []
  | n + 1, b => slice b 0 dataMax :: chunks n (b.drop dataMax)

/-- The chunks of a byte string, none for the empty one (R96). -/
def chunksOf (b : List Byte) : List (List Byte) := chunks ((b.length + 31) / dataMax) b

/-- `wr DATAi, le64(c'[8i..8i+8))` for each i with 8i < len(c) (R96). -/
def loadData (c : List Byte) : List Event :=
  let c' := c ++ zeros (8 * ((c.length + 7) / 8) - c.length)
  ([0, 1, 2, 3] : List (Fin 4)).filterMap fun i =>
    if 8 * i.val < c.length then some (wr (.data i) (le64 (slice c' (8 * i.val) (8 * i.val + 8)))) else none

/-- `absorb b` (R96). -/
def absorbProgram (polls : Nat) (b : List Byte) : List Event :=
  (chunksOf b).flatMap fun c => loadData c ++ [cmd (.ins c.length)] ++ wait polls

/-- `setkey K` (R96). -/
def setKeyProgram (k : List Byte) : List Event :=
  ([0, 1, 2, 3] : List (Fin 4)).map fun j => wr (.key j) (le64 (slice k (8 * j.val) (8 * j.val + 8)))

/-- `setnonce N` (R96). -/
def setNonceProgram (n : BitVec 96) : List Event :=
  [wr .nonce0 (n.extractLsb' 0 64), wr .nonce1 ((n.extractLsb' 64 32).zeroExtend 64)]

/-- `hash64 seed, b` (R96). -/
def hash64Program (polls : Nat) (seed : U64) (b : List Byte) : List Event :=
  [wr .seed seed, cmd .init] ++ wait polls ++ absorbProgram polls b ++ [cmd .h64] ++ wait polls ++ [rd (.res 0)]

/-- The secure command of `W` words, W in {2, 4, 8} (R87). -/
def secureCommand : Nat → Option Instr
  | 2 => some .sec128
  | 4 => some .sec256
  | 8 => some .sec512
  | _ => none

/-- `rd RES0` .. `rd RES(n−1)`, n ≤ 8 (R96). -/
def readResults (n : Nat) : List Event :=
  (([0, 1, 2, 3, 4, 5, 6, 7] : List (Fin 8)).take n).map fun k => rd (.res k)

/-- `securehash W, K, seed, N, b`; no program for a width the document rejects (R87, R96). -/
def secureHashProgram (polls : Nat) (w : Nat) (k : List Byte) (seed : U64) (n : BitVec 96) (b : List Byte) :
    Option (List Event) :=
  (secureCommand w).map fun i =>
    [wr .seed seed, cmd .init] ++ wait polls ++ absorbProgram polls b ++ setKeyProgram k ++ setNonceProgram n
      ++ [cmd i] ++ wait polls ++ readResults w

/-- `xcrypt b` (R96). -/
def xcryptProgram (polls : Nat) (b : List Byte) : List Event :=
  (chunksOf b).flatMap fun c =>
    loadData c ++ [cmd (.cxor c.length)] ++ wait polls ++ readResults ((c.length + 7) / 8)

end Sys2Proof.Machine
end

