-- ==== Sys2Proof/Safety.lean ====
section
/-! DEFINITION. What claims about runs are stated in: legal events, and the invariant of the block's state. -/

namespace Sys2Proof.Machine

open Sys2Proof

/-- The event is no bus error (R63). -/
def Event.legal : Event → Bool
  | .busWrite off width _ => (regAt off width).isSome
  | .busRead off width => (regAt off width).isSome
  | .core => true
  | .reset => true

/-- No event to come is a bus error. -/
def State.legalAgenda (s : State) : Bool := s.agenda.all Event.legal

/-- ACC as the rules leave it between commands: `fill = count mod 32`, which gives R24's `fill < 32`
(R24, R148). -/
abbrev Acc.Ok (a : Acc) : Prop := a.fill = a.count.toNat % 32

/-- A cipher instance as the rules leave it: the cursor lies in 0..64, and `st` is the input state of the
instance's key, nonce and counter (R26, R200, R204). -/
abbrev Cipher.Ok (P : Params) (e : Cipher) : Prop := e.cur ≤ 64 ∧ e.st = initState P e.key e.nonce e.ctr

/-- The invariant of the block's state: ACC and CIPH are as their rules leave them once valid, only a valid
accumulator is faulted, and one that is not valid still has its reset value (R24 to R26, R31 to R33, R260). -/
abbrev State.Inv (P : Params) (s : State) : Prop :=
  (s.accValid = true → s.acc.Ok) ∧ (s.accValid = false → s.acc = Acc.reset ∧ s.accOvf = false) ∧
    (s.ciphValid = true → s.ciph.Ok P) ∧ (s.ciphValid = false → s.ciph = Cipher.reset)

/-- The next event is the core's step and it performs the command `i` (R101). The core has the turn at its
own event, and, by log entry 2, when no event is left. -/
def State.performs (s : State) (i : Instr) : Prop :=
  s.busy = true ∧ decode s.cmdq = some i ∧ (s.agenda = [] ∨ ∃ rest, s.agenda = .core :: rest)

/-- The next event is reset (R260). -/
def State.resets (s : State) : Prop := ∃ rest, s.agenda = .reset :: rest

/-- `ACC.pend[0..fill)`, the only bytes of the pending buffer that hold data (R24). -/
def livePend (a : Acc) : List Byte := a.pend.toList.take a.fill

/-- ACCCMD, the accumulator commands of R104. -/
def accCommand : Instr → Bool
  | .ins _ => true
  | .h64 => true
  | .h128 => true
  | .h256 => true
  | .sec128 => true
  | .sec256 => true
  | .sec512 => true
  | .nop => false
  | .init => false
  | .mix => false
  | .cinit => false
  | .cgen => false
  | .cxor _ => false

/-- The finalization commands, which are queries of ACC (R51, R76). -/
def finalizer : Instr → Bool
  | .h64 => true
  | .h128 => true
  | .h256 => true
  | .sec128 => true
  | .sec256 => true
  | .sec512 => true
  | .ins _ => false
  | .nop => false
  | .init => false
  | .mix => false
  | .cinit => false
  | .cgen => false
  | .cxor _ => false

/-- CGEN and CXOR, the commands that need CIPH.valid (R104). -/
def streamCommand : Instr → Bool
  | .cgen => true
  | .cxor _ => true
  | .nop => false
  | .init => false
  | .ins _ => false
  | .mix => false
  | .h64 => false
  | .h128 => false
  | .h256 => false
  | .sec128 => false
  | .sec256 => false
  | .sec512 => false
  | .cinit => false

/-- How many RES registers a command writes when it succeeds, from RES0 up (R86, R268). -/
def resultWords : Instr → Nat
  | .mix => 1
  | .h64 => 1
  | .h128 => 2
  | .h256 => 4
  | .sec128 => 2
  | .sec256 => 4
  | .sec512 => 8
  | .cgen => 8
  | .cxor _ => 4
  | .nop => 0
  | .init => 0
  | .ins _ => 0
  | .cinit => 0

/-- INS with a LEN that would carry ACC.count past 2^64 − 1, on the exact sum (R145). -/
def insOverflows (s : State) : Instr → Bool
  | .ins len => decide (2 ^ 64 - 1 < s.acc.count.toNat + len)
  | .nop => false
  | .init => false
  | .mix => false
  | .h64 => false
  | .h128 => false
  | .h256 => false
  | .sec128 => false
  | .sec256 => false
  | .sec512 => false
  | .cinit => false
  | .cgen => false
  | .cxor _ => false

/-- The result code R234 gives a performed word: the first of ILLEGAL, NOACC, FAULTED, NOCIPHER and
OVERFLOW that applies, else OK. -/
def firstError (w : U64) (s : State) : ErrCode :=
  match decode w with
  | none => .illegal
  | some i =>
    if accCommand i = true ∧ s.accValid = false then .noAcc
    else if accCommand i = true ∧ s.accOvf = true then .faulted
    else if streamCommand i = true ∧ s.ciphValid = false then .noCipher
    else if insOverflows s i = true then .overflow
    else .ok

/-- A sequence of INS commands, each with the DATA words loaded for it (R96, R147). -/
def insAll : List (Vector U64 4 × Nat) → State → Host.Outcome State Fault Refusal
  | [], s => .next s
  | (d, len) :: rest, s =>
    match exec (.ins len) { s with data := d } with
    | .next t => insAll rest t
    | .fault r => .fault r
    | .refused r => .refused r

/-- The stream the DBYTES prefixes of such a sequence concatenate to (R147). -/
def insStream : List (Vector U64 4 × Nat) → List Byte
  | [] => []
  | (d, len) :: rest => (dataBytes d).take len ++ insStream rest

/-- Word i of `block_fn`'s output before it is serialised: the sum of the permuted and the input word (R203). -/
def blockWord (st : Vector U32 16) (i : Fin 16) : U32 := (doubleRounds 10 st)[i] + st[i]

/-- Word k, k < 8, of the keystream block as a `u64`: words 2k (low) and 2k + 1 (high) of the sums (R203, R43). -/
def blockWord64 (st : Vector U32 16) (k : Fin 8) : U64 :=
  blockWord st ⟨2 * k.val + 1, by omega⟩ ++ blockWord st ⟨2 * k.val, by omega⟩

end Sys2Proof.Machine
end

