-- ==== Sys2Proof/Certificates/Slice0/Obligations.lean ====
section
/-! DEFINITION. The statements for the provers, each citing the rule of spec/ it formalises. The block has
no memory, so a frame is said on the whole state: an equation `t = { s with … }` names every field that
changes, the hidden ones included. -/

open Sys2Proof Sys2Proof.Machine

/-! Encoding. -/

/-- R81, R83, R85, R86: every command with an encoding decodes from its own word. -/
def Obligations.EncodedCommandDecodes : Prop :=
  ∀ i : Instr, i.wellFormed = true → decode (encode i) = some i

/-- R84, R85, R89: a word that decodes is the encoding of what it decodes to, and of a command with an
encoding, so no bit of a legal word is dropped and no command has two words. -/
def Obligations.DecodedWordIsItsEncoding : Prop :=
  ∀ (w : U64) (i : Instr), decode w = some i → i.wellFormed = true ∧ encode i = w

/-- R90 (a) to (d), as arithmetic on the word's number: exactly these words are illegal. -/
def Obligations.IllegalWordsAreThoseOfTheRule : Prop :=
  ∀ w : U64,
    let opc := w.toNat % 256
    let len := w.toNat / 256 % 64
    let formatNCodes := [0x00, 0x01, 0x03, 0x10, 0x11, 0x12, 0x20, 0x21, 0x22, 0x30, 0x31]
    let formatLCodes := [0x02, 0x32]
    decode w = none ↔
      opc ∉ formatNCodes ++ formatLCodes ∨ w.toNat / 2 ^ 14 ≠ 0 ∨ (opc ∈ formatNCodes ∧ len ≠ 0) ∨
        (opc ∈ formatLCodes ∧ 33 ≤ len)

/-- R97: the example encodings, which the decoder reads and the encoder writes, and the illegal examples. -/
def Obligations.ExampleWordsDecode : Prop :=
  (∀ p ∈ [((0x0000000000000000 : U64), Instr.nop), (0x0000000000000001, .init), (0x0000000000000002, .ins 0),
      (0x0000000000002002, .ins 32), (0x0000000000000003, .mix), (0x0000000000000011, .h128),
      (0x0000000000000022, .sec512), (0x0000000000000532, .cxor 5)],
    decode p.1 = some p.2 ∧ encode p.2 = p.1) ∧
    decode 0x0000000000002102 = none ∧ decode 0x0000000000000023 = none ∧ decode 0x0000000000004000 = none

/-! The core's step, the events, and the invariant. -/

/-- R101: when the core has the turn and BUSY = 1, the step performs the decoded command by `exec` on the
state whose agenda has moved past the turn, and clears BUSY. That the core has the turn when the agenda is
empty is the model's choice, log entry 2. -/
def Obligations.StepPerformsTheIssuedCommand : Prop :=
  ∀ (s : State) (i : Instr) (rest : List Event), s.busy = true → decode s.cmdq = some i →
    (s.agenda = .core :: rest ∨ (s.agenda = [] ∧ rest = [])) →
    ∃ t, exec i { s with agenda := rest } = .next t ∧ step s = .next { t with busy := false }

/-- R103: performing a word that is ILLEGAL sets ERR = ILLEGAL and nothing else (R101 then clears BUSY). -/
def Obligations.IllegalWordSetsErrAlone : Prop :=
  ∀ (s : State) (rest : List Event), s.busy = true → decode s.cmdq = none → s.agenda = .core :: rest →
    step s = .next { s with err := .illegal, busy := false, agenda := rest }

/-- R101 ("The step always completes") and R231: no command faults, refuses or hangs in any state, and a
step whose event is no bus error answers a next state. The model's choices in it: that the terms `ins n` and
`cxor n` with n > 32, which have no encoding, complete is log entry 8; that the core has the turn when the
agenda is empty is log entry 2; that its turn with BUSY = 0 answers the same state is log entry 6. -/
def Obligations.EveryLegalStepCompletes : Prop :=
  (∀ (i : Instr) (s : State), ∃ t, exec i s = .next t) ∧
    (∀ s : State, s.legalAgenda = true → ∃ t, step s = .next t ∧ t.legalAgenda = true)

/-- R24, R26, R148 (and R22, R25, R31 to R33): every step keeps the invariant of the block's state. Its half
for an ACC or CIPH that is not valid, which still has its reset value, rests on the values R260 lists; that the
model holds these is log entry 5. -/
def Obligations.StepKeepsTheInvariant : Prop :=
  ∀ s t : State, s.Inv Config.params → step s = .next t → t.Inv Config.params

/-- R260: the state after reset meets the invariant, whose half for an object that is not valid is log
entry 5. -/
def Obligations.ResetMeetsTheInvariant : Prop := State.reset.Inv Config.params

/-- R101: an outstanding command is performed (or abandoned by reset) within as many steps as there are
events to come, and one more. That the core has the turn once the host is silent is the model's choice,
log entry 2. -/
def Obligations.OutstandingCommandIsPerformed : Prop :=
  ∀ s : State, s.legalAgenda = true → s.busy = true →
    ∃ k ≤ s.agenda.length + 1, ∃ t, core.run k s = .next t ∧ t.busy = false

/-- R30, R100, R101, R260: BUSY is set by a CMD write that issues, cleared by the core's step and by reset,
and changed by nothing else. That a step with an empty agenda is the core's, and so clears BUSY, is the
model's choice, log entry 2. -/
def Obligations.BusyChangesOnlyAtIssueAndPerformance : Prop :=
  ∀ s t : State, step s = .next t →
    (s.busy = false → (t.busy = true ↔ ∃ v rest, s.agenda = .busWrite 0x10 8 v :: rest)) ∧
      (s.busy = true → (t.busy = false ↔ s.agenda = [] ∨ ∃ rest, s.agenda = .core :: rest ∨ s.agenda = .reset :: rest))

/-- R34, R260: WIGN is set exactly by a legal write while BUSY = 1, which has no other effect, and cleared
exactly by a write of STATUS with bit 4 = 1 while BUSY = 0, or by reset; no command writes it. -/
def Obligations.WignIsSetByLostWritesAlone : Prop :=
  ∀ s t : State, step s = .next t →
    (∀ off v rest, s.busy = true → s.agenda = .busWrite off 8 v :: rest → t = { s with agenda := rest, wign := true }) ∧
    (s.wign = false → (t.wign = true ↔ s.busy = true ∧ ∃ off v rest, s.agenda = .busWrite off 8 v :: rest)) ∧
      (s.wign = true → (t.wign = false ↔
        (s.busy = false ∧ ∃ v rest, s.agenda = .busWrite 0x08 8 v :: rest ∧ v.getLsbD 4 = true) ∨
          ∃ rest, s.agenda = .reset :: rest))

/-- R72 (3), R64: host writes between the CMD write and the core's step change nothing of what the command
does; WIGN alone shows that they were lost. -/
def Obligations.LateWritesDoNotReachTheCommand : Prop :=
  ∀ (s t : State) (ws : List Event), s.busy = true →
    (∀ e ∈ ws, ∃ off v, e = .busWrite off 8 v ∧ off % 8 = 0 ∧ off ≤ 0xF8) →
    step { s with agenda := [.core] } = .next t →
    core.run (ws.length + 1) { s with agenda := ws ++ [.core] } =
      .next { t with wign := s.wign || !ws.isEmpty }

/-! Errors. -/

/-- R234: the core's step reports exactly one code, the first of ILLEGAL, NOACC, FAULTED, NOCIPHER and
OVERFLOW that applies, and OK if none does; NOCIPHER and the accumulator errors never meet in one command. -/
def Obligations.FirstApplicableErrorIsReported : Prop :=
  (∀ (s : State) (rest : List Event), s.busy = true → s.agenda = .core :: rest →
    ∃ t, step s = .next t ∧ t.err = firstError s.cmdq s) ∧
    ∀ i : Instr, ¬(accCommand i = true ∧ streamCommand i = true)

/-- R232, R237: a command that does not end with OK changes nothing but ERR, save the OVF bit, which only
OVERFLOW sets. -/
def Obligations.FailedCommandChangesNothingElse : Prop :=
  ∀ (i : Instr) (s t : State), exec i s = .next t → t.err ≠ .ok →
    t = { s with err := t.err, accOvf := s.accOvf || decide (t.err = .overflow) }

/-- R106: a command writes only the state its rule names, and ERR: ACC only INIT and INS, OVF only INIT and
INS, CIPH only CINIT, CGEN and CXOR, RES only its own registers; no command writes an operand register. -/
def Obligations.CommandWritesOnlyItsOwnResults : Prop :=
  ∀ (i : Instr) (s t : State), exec i s = .next t →
    t = { s with err := t.err, res := t.res, acc := t.acc, accValid := t.accValid, accOvf := t.accOvf,
                 ciph := t.ciph, ciphValid := t.ciphValid } ∧
      (∀ k : Fin 8, resultWords i ≤ k.val → t.res[k] = s.res[k]) ∧
      (i ≠ .init → t.accValid = s.accValid ∧
        ((∀ len, i ≠ .ins len) → t.acc = s.acc ∧ t.accOvf = s.accOvf)) ∧
      (i ≠ .cinit → t.ciphValid = s.ciphValid ∧ (streamCommand i = false → t.ciph = s.ciph))

/-- R233 (1) to (4), R33: an overflowing INS changes only OVF and ERR, and nothing else sets OVF; while
OVF = 1 every accumulator command is refused with FAULTED and changes nothing; OVF is cleared by INIT and by
reset and by no other event; MIX and the cipher commands keep working. That `State.performs` takes in a step
with an empty agenda, in which the core has the turn, is the model's choice, log entry 2. -/
def Obligations.OverflowIsStickyUntilInit : Prop :=
  (∀ (s : State) (len : Nat), len ≤ 32 → s.accValid = true → s.accOvf = false →
      2 ^ 64 - 1 < s.acc.count.toNat + len →
      exec (.ins len) s = .next { s with accOvf := true, err := .overflow }) ∧
    (∀ (s : State) (i : Instr), i.wellFormed = true → accCommand i = true → s.accValid = true → s.accOvf = true →
      exec i s = .next { s with err := .faulted }) ∧
    (∀ s t : State, step s = .next t →
      (s.accOvf = true → (t.accOvf = false ↔ s.performs .init ∨ s.resets)) ∧
        (s.accOvf = false → (t.accOvf = true ↔
          s.accValid = true ∧ ∃ len, s.performs (.ins len) ∧ 2 ^ 64 - 1 < s.acc.count.toNat + len))) ∧
    (∀ (s : State) (i : Instr), i.wellFormed = true → s.accOvf = true →
      (i = .mix ∨ i = .cinit ∨ (s.ciphValid = true ∧ streamCommand i = true)) →
      ∃ t, exec i s = .next t ∧ t.err = .ok ∧ t.accOvf = true)

/-- R31, R32: STATUS shows ACC.valid and CIPH.valid; INIT sets the one and CINIT the other, and only reset
clears them. That `State.performs` takes in a step with an empty agenda, in which the core has the turn, is the
model's choice, log entry 2. -/
def Obligations.ValidBitsAreSetByConstructionAlone : Prop :=
  ∀ s t : State, step s = .next t →
    ((statusWord s).getLsbD 1 = s.accValid ∧ (statusWord s).getLsbD 2 = s.ciphValid) ∧
      (s.accValid = false → (t.accValid = true ↔ s.performs .init)) ∧
      (s.accValid = true → (t.accValid = false ↔ s.resets)) ∧
      (s.ciphValid = false → (t.ciphValid = true ↔ s.performs .cinit)) ∧
      (s.ciphValid = true → (t.ciphValid = false ↔ s.resets))

/-- R104, R230: before INIT every accumulator command ends with NOACC, before CINIT the stream commands
end with NOCIPHER, and nothing else changes. -/
def Obligations.CommandsBeforeConstructionAreRefused : Prop :=
  ∀ (s : State) (i : Instr), i.wellFormed = true →
    (accCommand i = true → s.accValid = false → exec i s = .next { s with err := .noAcc }) ∧
      (streamCommand i = true → s.ciphValid = false → exec i s = .next { s with err := .noCipher })

/-! NOP, MIX, INIT and INS. -/

/-- R105: NOP completes in every state and sets ERR = OK, touching nothing else. -/
def Obligations.NopSetsErrOk : Prop := ∀ s : State, exec .nop s = .next { s with err := .ok }

/-- R124 with R123: MIX completes in every state, and RES0 is the exclusive-or of both operands and both
halves of the exact product of DATA0 and DATA1 XOR MIX_K. -/
def Obligations.MixWritesTheFoldedProduct : Prop :=
  ∀ s : State,
    let a := s.data[0]
    let b := s.data[1]
    let p := a.toNat * (b ^^^ Config.params.mixK).toNat
    exec .mix s = .next { s with
      res := s.res.set 0 (a ^^^ b ^^^ BitVec.ofNat 64 (p % 2 ^ 64) ^^^ BitVec.ofNat 64 (p / 2 ^ 64))
      err := .ok }

/-- R126: the 32-bit-limb computation gives exactly the product's halves, its middle sum fits 34 bits and
its high sum 64, and `mix` is what they fold to. -/
def Obligations.LimbProductGivesMix : Prop :=
  ∀ (P : Params) (a b : U64),
    let c := b ^^^ P.mixK
    let a0 := a.toNat % 2 ^ 32
    let a1 := a.toNat / 2 ^ 32
    let c0 := c.toNat % 2 ^ 32
    let c1 := c.toNat / 2 ^ 32
    let mid := a0 * c0 / 2 ^ 32 + a0 * c1 % 2 ^ 32 + a1 * c0 % 2 ^ 32
    let lo := mid % 2 ^ 32 * 2 ^ 32 + a0 * c0 % 2 ^ 32
    let hi := a1 * c1 + a0 * c1 / 2 ^ 32 + a1 * c0 / 2 ^ 32 + mid / 2 ^ 32
    mid < 2 ^ 34 ∧ hi < 2 ^ 64 ∧ hi * 2 ^ 64 + lo = a.toNat * c.toNat ∧
      mix P a b = a ^^^ b ^^^ BitVec.ofNat 64 lo ^^^ BitVec.ofNat 64 hi

/-- R125 (a), (b), (c), (e): corner cases of `mix`, for every configuration. -/
def Obligations.MixCornerCases : Prop :=
  ∀ (P : Params) (a b : U64),
    mix P 0 b = b ∧ mix P a P.mixK = a ^^^ P.mixK ∧
      (mul128 a (b ^^^ P.mixK)).toNat / 2 ^ 64 ≤ 2 ^ 64 - 2 ∧
      mix P a a = (mul128 a (a ^^^ P.mixK)).extractLsb' 0 64 ^^^ (mul128 a (a ^^^ P.mixK)).extractLsb' 64 64

/-- R125 (d) says that `mix` is not symmetric in general: that is so for every MIX_K but 0, and for
MIX_K = 0 it is symmetric (NOTES.md, log entry 13). -/
def Obligations.MixIsSymmetricOnlyForZeroConstant : Prop :=
  ∀ P : Params, (∀ a b : U64, mix P a b = mix P b a) ↔ P.mixK = 0

/-- R140 with R120 and R121: INIT completes in every state; lane k is the mixed value of seed + (k+1)·γ, and
count, fill, pend, valid and ovf take the values the rule gives. -/
def Obligations.InitConstructsTheAccumulator : Prop :=
  ∀ s : State, ∃ t, exec .init s = .next t ∧
    t = { s with acc := t.acc, accValid := true, accOvf := false, err := .ok } ∧
    t.acc.count = 0 ∧ t.acc.fill = 0 ∧ t.acc.pend = Vector.replicate 32 0 ∧
    ∀ k : Fin 4,
      let P := Config.params
      let z0 := s.seed + BitVec.ofNat 64 (k.val + 1) * P.seGamma
      let z1 := (z0 ^^^ (z0 >>> P.seS1)) * P.seM1
      let z2 := (z1 ^^^ (z1 >>> P.seS2)) * P.seM2
      t.acc.lane[k] = z2 ^^^ (z2 >>> P.seS3)

/-- R143 with R141, R142 and R149: INS on a valid, non-faulted accumulator whose counter does not pass its
maximum completes; it absorbs the bytes DBYTES[0..LEN) after the pending ones, one block at most. `fill < 32`
is R24's invariant, of which `StepKeepsTheInvariant` is the proof. -/
def Obligations.InsAbsorbsDataBytes : Prop :=
  ∀ (s : State) (len : Nat), len ≤ 32 → s.accValid = true → s.accOvf = false → s.acc.fill < 32 →
    s.acc.count.toNat + len ≤ 2 ^ 64 - 1 →
    ∃ t, exec (.ins len) s = .next t ∧ t = { s with acc := t.acc, err := .ok } ∧
      (let q := livePend s.acc ++ (dbytes s).take len
       t.acc.count.toNat = s.acc.count.toNat + len ∧
        t.acc.fill = (s.acc.fill + len) % 32 ∧
        livePend t.acc = q.drop (32 * ((s.acc.fill + len) / 32)) ∧
        ∀ i : Fin 4, t.acc.lane[i] =
          if s.acc.fill + len < 32 then s.acc.lane[i]
          else mix Config.params s.acc.lane[i] (le64 (slice q (8 * i.val) (8 * i.val + 8))))

/-- R144: INS 0 changes no ACC state on a valid, non-faulted accumulator; without one it is NOACC, on a
faulted one FAULTED. -/
def Obligations.ZeroLengthInsIsANoOp : Prop :=
  ∀ s : State,
    exec (.ins 0) s = .next { s with
      err := if s.accValid = false then .noAcc else if s.accOvf = true then .faulted else .ok }

/-- R147, for a valid accumulator (fill < 32): absorbing a string in two pieces or in one gives the same
lanes, count, fill and pending data. -/
def Obligations.AbsorbIsChunkInvariant : Prop :=
  ∀ (P : Params) (a : Acc) (s1 s2 : List Byte), a.fill < 32 →
    let x := absorb P (absorb P a s1) s2
    let y := absorb P a (s1 ++ s2)
    x.lane = y.lane ∧ x.count = y.count ∧ x.fill = y.fill ∧ livePend x = livePend y

/-- R148, R147: from INIT, the accumulator is a function of the stream: fill is its length mod 32, the
pending data its last fill bytes, and each lane has absorbed word i of each complete block, in order. -/
def Obligations.AccumulatorIsAFunctionOfTheStream : Prop :=
  ∀ (P : Params) (seed : U64) (s : List Byte), s.length < 2 ^ 64 →
    let a := absorb P (initAcc P seed) s
    a.count.toNat = s.length ∧ a.fill = a.count.toNat % 32 ∧
      livePend a = s.drop (32 * (s.length / 32)) ∧
      ∀ i : Fin 4, a.lane[i] =
        (List.range (s.length / 32)).foldl
          (fun l j => mix P l (le64 (slice s (32 * j + 8 * i.val) (32 * j + 8 * i.val + 8)))) (expand P seed)[i]

/-- R147, R96: any sequence of INS commands whose DBYTES prefixes concatenate to a stream completes and
leaves the ACC that one absorption of the stream leaves. -/
def Obligations.InsSequenceAbsorbsItsStream : Prop :=
  ∀ (cs : List (Vector U64 4 × Nat)) (s : State), (∀ c ∈ cs, c.2 ≤ 32) →
    s.accValid = true → s.accOvf = false → s.acc.fill < 32 →
    s.acc.count.toNat + (insStream cs).length ≤ 2 ^ 64 - 1 →
    ∃ t, insAll cs s = .next t ∧
      (let y := absorb Config.params s.acc (insStream cs)
       t.acc.lane = y.lane ∧ t.acc.count = y.count ∧ t.acc.fill = y.fill ∧ livePend t.acc = livePend y)

/-- R146: the new lane i depends on no other lane. -/
def Obligations.LanesAreIndependent : Prop :=
  ∀ (P : Params) (a b : Acc) (s : List Byte) (i : Fin 4),
    a.pend = b.pend → a.fill = b.fill → a.lane[i] = b.lane[i] →
    (absorb P a s).lane[i] = (absorb P b s).lane[i]

/-- R143, R212 (D51): INS and CXOR read no DATA byte at index LEN or above: with other bytes there they end
in the same state. -/
def Obligations.DataBytesPastLenAreNotRead : Prop :=
  ∀ (s t : State) (d : Vector U64 4) (len : Nat) (i : Instr), i = .ins len ∨ i = .cxor len →
    (dataBytes d).take len = (dbytes s).take len → exec i s = .next t →
    exec i { s with data := d } = .next { t with data := d }

/-! The standard and the secure finalizer. -/

/-- R160: the padded copy has the lanes that absorbing zeros up to the block boundary gives, and the
unpadded count. `fill < 32` is R24's invariant. -/
def Obligations.PadAbsorbsZerosAndKeepsTheCount : Prop :=
  ∀ (P : Params) (a : Acc), a.fill < 32 →
    (padFinal P a).lane = (absorb P a (zeros ((32 - a.fill) % 32))).lane ∧ (padFinal P a).count = a.count

/-- R161, R166: H256 completes on a valid, non-faulted accumulator and writes RES0..RES3 with length
injection, seasoning and the four pairings applied to the padded lanes. -/
def Obligations.H256FollowsTheFinalizerRule : Prop :=
  ∀ s : State, s.accValid = true → s.accOvf = false →
    let P := Config.params
    let c := padFinal P s.acc
    let a := mix P c.lane[0] s.acc.count
    let b := mix P c.lane[1] (BitVec.ofNat 64 (s.acc.count.toNat / 2 ^ 32))
    let c' := mix P c.lane[2] P.phi
    let d := mix P c.lane[3] P.phi2
    let ab := P.xmixUpd a b (mix P a b) 11
    let cd := P.xmixUpd c' d (mix P c' d) 23
    let ad := P.xmixUpd ab.1 cd.2 (mix P ab.1 cd.2) 31
    let bc := P.xmixUpd ab.2 cd.1 (mix P ab.2 cd.1) 43
    exec .h256 s = .next { s with
      res := (((s.res.set 0 ad.1).set 1 bc.1).set 2 bc.2).set 3 ad.2
      err := .ok }

/-- R168 with R163 to R166: on a valid, non-faulted accumulator H256, H128 and H64 in a row complete; the
narrower results are folds of the wider, and each command writes its own RES registers alone. -/
def Obligations.FinalizerWidthsAreConsistent : Prop :=
  ∀ s : State, s.accValid = true → s.accOvf = false →
    ∃ h : Vector U64 4,
      exec .h256 s = .next { s with res := (((s.res.set 0 h[0]).set 1 h[1]).set 2 h[2]).set 3 h[3], err := .ok } ∧
      exec .h128 s = .next { s with res := (s.res.set 0 (h[0] ^^^ h[1])).set 1 (h[2] ^^^ h[3]), err := .ok } ∧
      exec .h64 s = .next { s with res := s.res.set 0 (h[0] ^^^ h[1] ^^^ h[2] ^^^ h[3]), err := .ok } ∧
      ∃ t1 t2 t3, exec .h256 s = .next t1 ∧ exec .h128 t1 = .next t2 ∧ exec .h64 t2 = .next t3 ∧
        t2.res[0] = h[0] ^^^ h[1] ∧ t2.res[1] = h[2] ^^^ h[3] ∧
        t3.res[0] = h[0] ^^^ h[1] ^^^ h[2] ^^^ h[3] ∧ t3.res[0] = t2.res[0] ^^^ t2.res[1]

/-- R169: for 1 ≤ k ≤ 31, k zero bytes after INIT give the same padded lanes, those of one all-zero block,
and the count alone tells them apart. -/
def Obligations.ZeroPaddingIsToldApartByTheCount : Prop :=
  ∀ (P : Params) (seed : U64) (k : Nat), 1 ≤ k → k ≤ 31 →
    let c := padFinal P (absorb P (initAcc P seed) (zeros k))
    c.lane = (process32 P (initAcc P seed) (zeros 32)).lane ∧ c.count.toNat = k

/-- R51, R76, R167, R186: a finalization command changes only RES and ERR, and every command after it does
to ACC and to CIPH, reports and writes as results what it would have without it. -/
def Obligations.FinalizationIsAQuery : Prop :=
  ∀ (f i : Instr) (s t u v : State), finalizer f = true → exec f s = .next t → exec i s = .next u → exec i t = .next v →
    t = { s with res := t.res, err := t.err } ∧
      v = { u with res := v.res } ∧
      (u.err = .ok → ∀ k : Fin 8, k.val < resultWords i → v.res[k] = u.res[k])

/-- R180, R181, R183 to R186: the secure commands complete on a valid, non-faulted accumulator; their words
are the first 2, 4 and 8 words of one vector, the SecureBlock of the padded lanes XOR the keystream block
for counter 1 under KEY0..3 and NONCE0; each writes its own RES registers alone. -/
def Obligations.SecureCommandsNestOneEncryptedBlock : Prop :=
  ∀ s : State, s.accValid = true → s.accOvf = false →
    let c := padFinal Config.params s.acc
    let lo : U64 := BitVec.ofNat 64 (s.acc.count.toNat % 2 ^ 32)
    let hi : U64 := BitVec.ofNat 64 (s.acc.count.toNat / 2 ^ 32)
    let block : Vector U64 8 :=
      #v[c.lane[0], c.lane[1], c.lane[2], c.lane[3], lo, hi, 0x517cc1b727220a94, 0x853a83b0eba87773]
    let st := initState Config.params (keyWords s) (nonceWords s) 1
    ∃ w : Vector U64 8, (∀ k : Fin 8, w[k] = block[k] ^^^ blockWord64 st k) ∧
      exec .sec128 s = .next { s with res := (s.res.set 0 w[0]).set 1 w[1], err := .ok } ∧
      exec .sec256 s =
        .next { s with res := (((s.res.set 0 w[0]).set 1 w[1]).set 2 w[2]).set 3 w[3], err := .ok } ∧
      exec .sec512 s = .next { s with res := w, err := .ok }

/-- R182: the secure commands neither read nor write CIPH or its valid bit. -/
def Obligations.SecureCommandsIgnoreTheCipherInstance : Prop :=
  ∀ (s t : State) (i : Instr) (e : Cipher) (b : Bool), i = .sec128 ∨ i = .sec256 ∨ i = .sec512 →
    exec i s = .next t →
    t.ciph = s.ciph ∧ t.ciphValid = s.ciphValid ∧
      exec i { s with ciph := e, ciphValid := b } = .next { t with ciph := e, ciphValid := b }

/-- R187, R201: nonce bits [95:64] affect no output: not a secure command's result, and, once CINIT has
captured them, no result of CGEN or CXOR. -/
def Obligations.HighNonceWordAffectsNoOutput : Prop :=
  (∀ (s t : State) (n : U32) (i : Instr), i = .sec128 ∨ i = .sec256 ∨ i = .sec512 → exec i s = .next t →
      exec i { s with nonce1 := n } = .next { t with nonce1 := n }) ∧
    (∀ (s t : State) (n : U32) (m : Vector U32 3), exec .cinit s = .next t →
      m = #v[s.nonce0.extractLsb' 0 32, s.nonce0.extractLsb' 32 32, n] →
      exec .cinit { s with nonce1 := n } =
        .next { t with nonce1 := n, ciph := { t.ciph with nonce := m } }) ∧
    (∀ (s t : State) (m : Vector U32 3) (i : Instr), streamCommand i = true → exec i s = .next t →
      exec i { s with ciph := { s.ciph with nonce := m } } =
        .next { t with ciph := { t.ciph with nonce := m } })

/-! The stream cipher. -/

/-- R210 with R200, R205, R39 to R41: CINIT completes in every state and constructs CIPH from KEY0..3 and
NONCE0..1 with counter 1, cursor 64 and a zero buffer. -/
def Obligations.CinitConstructsTheCipher : Prop :=
  ∀ s : State, ∃ t, exec .cinit s = .next t ∧
    t = { s with ciph := t.ciph, ciphValid := true, err := .ok } ∧
    t.ciph.ctr = 1 ∧ t.ciph.cur = 64 ∧ t.ciph.ks = Vector.replicate 64 0 ∧
    (∀ j : Fin 4, t.ciph.key[2 * j.val] = BitVec.ofNat 32 (s.key[j].toNat % 2 ^ 32) ∧
      t.ciph.key[2 * j.val + 1] = BitVec.ofNat 32 (s.key[j].toNat / 2 ^ 32)) ∧
    t.ciph.nonce[0] = BitVec.ofNat 32 (s.nonce0.toNat % 2 ^ 32) ∧
    t.ciph.nonce[1] = BitVec.ofNat 32 (s.nonce0.toNat / 2 ^ 32) ∧ t.ciph.nonce[2] = s.nonce1 ∧
    (let cc := Config.params.cc
     let k := t.ciph.key
     t.ciph.st = #v[cc[0], cc[1], cc[2], cc[3], k[0], k[1], k[2], k[3], k[4], k[5], k[6], k[7], 1, 0,
      t.ciph.nonce[0], t.ciph.nonce[1]])

/-- R211 with R204: with CIPH valid CGEN completes; it generates the block of the current counter, advances
the counter modulo 2^64 and its two state words, puts the cursor at 0, and shows the block in RES0..RES7. -/
def Obligations.CgenGeneratesAndShowsABlock : Prop :=
  ∀ s : State, s.ciphValid = true →
    let ctr := s.ciph.ctr + 1
    exec .cgen s = .next { s with
      ciph := { s.ciph with
        ks := blockFn s.ciph.st
        ctr := ctr
        st := (s.ciph.st.set 12 (BitVec.ofNat 32 (ctr.toNat % 2 ^ 32))).set 13 (BitVec.ofNat 32 (ctr.toNat / 2 ^ 32))
        cur := 0 }
      res := Vector.ofFn (blockWord64 s.ciph.st)
      err := .ok }

/-- R212 with R207: with CIPH valid and the cursor in 0..64 (R26's invariant) CXOR completes; byte j of its
result is byte j of the data XOR the keystream byte at the cursor plus j, from this block or, past its end,
from the next, which is generated only if a byte needs it; bytes from LEN to 31 are 0; RES4..RES7 stand. -/
def Obligations.CxorConsumesKeystream : Prop :=
  ∀ (s : State) (len : Nat), len ≤ 32 → s.ciphValid = true → s.ciph.cur ≤ 64 →
    let e := s.ciph
    ∃ t, exec (.cxor len) s = .next t ∧ t = { s with ciph := t.ciph, res := t.res, err := .ok } ∧
      (e.cur + len ≤ 64 ∧ (e.cur < 64 ∨ len = 0) → t.ciph = { e with cur := e.cur + len }) ∧
      (64 < e.cur + len → t.ciph = { cipherGen e with cur := e.cur + len - 64 }) ∧
      (∀ k : Fin 8, 4 ≤ k.val → t.res[k] = s.res[k]) ∧
      ∀ j : Fin 32, byteLane (t.res[j.val / 8]'(by omega)) (j.val % 8) =
        if j.val < len then
          byteLane (s.data[j.val / 8]'(by omega)) (j.val % 8) ^^^
            (if h : e.cur + j.val < 64 then e.ks[e.cur + j.val] else (blockFn e.st)[(e.cur + j.val) % 64])
        else 0

/-- R208: encrypting twice from equal instances gives the data back, and any split of the data into
successive calls gives the same output and the same instance. -/
def Obligations.EncryptionIsItsOwnInverse : Prop :=
  ∀ (e : Cipher) (s1 s2 : List Byte),
    (cipherXor e (cipherXor e s1).2).2 = s1 ∧
      cipherXor e (s1 ++ s2) =
        ((cipherXor (cipherXor e s1).1 s2).1, (cipherXor e s1).2 ++ (cipherXor (cipherXor e s1).1 s2).2)

/-! The register window, the bus and reset. -/

/-- R61: the effect of a legal write while BUSY = 0, register by register. -/
def Obligations.BusWriteEffects : Prop :=
  ∀ (s : State) (v : U64) (rest : List Event), s.busy = false →
    let after (off : Nat) := step { s with agenda := .busWrite off 8 v :: rest }
    after 0x18 = .next { s with agenda := rest, seed := v } ∧
      (∀ k : Fin 4, after (0x20 + 8 * k.val) = .next { s with agenda := rest, data := s.data.set k v }) ∧
      (∀ k : Fin 4, after (0x40 + 8 * k.val) = .next { s with agenda := rest, key := s.key.set k v }) ∧
      after 0x60 = .next { s with agenda := rest, nonce0 := v } ∧
      after 0x68 = .next { s with agenda := rest, nonce1 := BitVec.ofNat 32 (v.toNat % 2 ^ 32) } ∧
      after 0x10 = .next { s with agenda := rest, cmdq := v, busy := true } ∧
      after 0x08 = .next { s with agenda := rest, wign := s.wign && !v.getLsbD 4 } ∧
      after 0x00 = .next { s with agenda := rest } ∧
      (∀ k : Fin 2, after (0x70 + 8 * k.val) = .next { s with agenda := rest }) ∧
      (∀ k : Fin 16, after (0x80 + 8 * k.val) = .next { s with agenda := rest })

/-- R62 with R28, R36 to R48: a legal read changes no state of the block, whatever BUSY is, and returns the
value its register's rule defines. -/
def Obligations.BusReadValues : Prop :=
  ∀ (s : State) (rest : List Event),
    let reads (off : Nat) (v : U64) : Prop :=
      step { s with agenda := .busRead off 8 :: rest } = .next { s with agenda := rest, replies := s.replies ++ [v] }
    reads 0x00 0x4A53484153480007 ∧ reads 0x08 (statusWord s) ∧ reads 0x10 0 ∧ reads 0x18 s.seed ∧
      (∀ k : Fin 4, reads (0x20 + 8 * k.val) s.data[k] ∧ reads (0x40 + 8 * k.val) s.key[k]) ∧
      reads 0x60 s.nonce0 ∧ reads 0x68 (BitVec.ofNat 64 s.nonce1.toNat) ∧ reads 0x70 0 ∧ reads 0x78 0 ∧
      (∀ k : Fin 8, reads (0x80 + 8 * k.val) s.res[k]) ∧
      (∀ k : Fin 4, reads (0xC0 + 8 * k.val) (if s.accValid then s.acc.lane[k] else 0)) ∧
      reads 0xE0 (if s.accValid then s.acc.count else 0) ∧
      (s.acc.fill < 32 → reads 0xE8 (if s.accValid then BitVec.ofNat 64 s.acc.fill else 0)) ∧
      reads 0xF0 (if s.ciphValid then s.ciph.ctr else 0) ∧
      (s.ciph.cur ≤ 64 → reads 0xF8 (if s.ciphValid then BitVec.ofNat 64 s.ciph.cur else 0))

/-- R29, R31 to R33, R35, R230: the bits of STATUS, the number the host reads for each result code, and zero
in every reserved bit. -/
def Obligations.StatusBitsAreItsFields : Prop :=
  ∀ s : State,
    (statusWord s).getLsbD 0 = s.busy ∧ (statusWord s).getLsbD 1 = s.accValid ∧
      (statusWord s).getLsbD 2 = s.ciphValid ∧ (statusWord s).getLsbD 3 = s.accOvf ∧
      (statusWord s).getLsbD 4 = s.wign ∧ (statusWord s).toNat / 2 ^ 8 = (errBits s.err).toNat ∧
      (errBits s.err).toNat ≤ 5 ∧
      (errBits .ok = 0 ∧ errBits .illegal = 1 ∧ errBits .noAcc = 2 ∧ errBits .overflow = 3 ∧
        errBits .noCipher = 4 ∧ errBits .faulted = 5) ∧ ∀ k, 5 ≤ k → k ≤ 7 ∨ 12 ≤ k → (statusWord s).getLsbD k = false

/-- R64: a legal write while BUSY = 1 only sets WIGN, CMD and STATUS included. -/
def Obligations.WriteWhileBusyIsIgnored : Prop :=
  ∀ (s : State) (off : Nat) (v : U64) (rest : List Event), s.busy = true → off % 8 = 0 → off ≤ 0xF8 →
    step { s with agenda := .busWrite off 8 v :: rest } = .next { s with agenda := rest, wign := true }

/-- R63, R235: the only legal access is 8 bytes wide, aligned and inside the window; every other one, and no
legal one, is a fault of the host's step. -/
def Obligations.OnlyAlignedWindowAccessesAreLegal : Prop :=
  ∀ (s : State) (off width : Nat) (v : U64) (rest : List Event),
    let w := step { s with agenda := .busWrite off width v :: rest }
    let r := step { s with agenda := .busRead off width :: rest }
    if width = 8 ∧ off % 8 = 0 ∧ off < 0x100 then (∃ t, w = .next t) ∧ (∃ t, r = .next t)
    else w = .fault (.busError off width) ∧ r = .fault (.busError off width)

/-- R260, R261: reset, at any time, an outstanding command or none, leaves every register and all internal
state at the values of the rule. That the events to come and the replies stay is the model's choice, log entry
11; that ACC and CIPH hold the values R260 lists is log entry 5. -/
def Obligations.ResetLeavesTheResetValues : Prop :=
  ∀ (s : State) (rest : List Event), ∃ t, step { s with agenda := .reset :: rest } = .next t ∧
    t.busy = false ∧ t.wign = false ∧ t.err = .ok ∧ t.cmdq = 0 ∧ t.seed = 42 ∧
    (∀ k : Fin 4, t.data[k] = 0 ∧ t.key[k] = 0) ∧ t.nonce0 = 0 ∧ t.nonce1 = 0 ∧ (∀ k : Fin 8, t.res[k] = 0) ∧
    t.accValid = false ∧ t.accOvf = false ∧ (∀ k : Fin 4, t.acc.lane[k] = 0) ∧ t.acc.count = 0 ∧ t.acc.fill = 0 ∧
    (∀ k : Fin 32, t.acc.pend[k] = 0) ∧ t.ciphValid = false ∧ (∀ k : Fin 8, t.ciph.key[k] = 0) ∧
    (∀ k : Fin 3, t.ciph.nonce[k] = 0) ∧ t.ciph.ctr = 0 ∧ (∀ k : Fin 16, t.ciph.st[k] = 0) ∧
    (∀ k : Fin 64, t.ciph.ks[k] = 0) ∧ t.ciph.cur = 64 ∧ t.agenda = rest ∧ t.replies = s.replies

/-- R27: the value each register of the window reads right after reset. -/
def Obligations.WindowReadsItsResetValues : Prop :=
  ∀ k : Fin 32,
    step { State.reset with agenda := [.busRead (8 * k.val) 8] } =
      .next { State.reset with
        replies := [if k.val = 0 then 0x4A53484153480007 else if k.val = 3 then 42 else 0] }

/-! The keystream block, in terms of no operation of the model's rounds. -/

/-- R202, R203: the quarter-round on four different words adds, XORs and rotates left by 16, 12, 8 and 7 as the
rule wires it, and touches no other word; ten double-rounds, each the four column groups and then the four
diagonal groups, act on the input state; the input words are added back; and the sums are serialised
little-endian. The words that `CgenGeneratesAndShowsABlock` and `SecureCommandsNestOneEncryptedBlock` speak of
are those sums. The wiring, the left rotation and the byte order are the spec's own decisions (92_eei_decisions.md
D27 and D5, R15), not its source's. -/
def Obligations.KeystreamBlockFollowsTheRule : Prop :=
  (∀ (x : Vector U32 16) (a b c d : Fin 16), [a, b, c, d].Nodup →
    let a1 := x[a] + x[b]
    let d1 := (x[d] ^^^ a1).rotateLeft 16
    let c1 := x[c] + d1
    let b1 := (x[b] ^^^ c1).rotateLeft 12
    let a2 := a1 + b1
    let d2 := (d1 ^^^ a2).rotateLeft 8
    let c2 := c1 + d2
    let b2 := (b1 ^^^ c2).rotateLeft 7
    let y := quarterRound x a b c d
    y[a] = a2 ∧ y[b] = b2 ∧ y[c] = c2 ∧ y[d] = d2 ∧ ∀ k : Fin 16, k ∉ [a, b, c, d] → y[k] = x[k]) ∧
  ∀ st : Vector U32 16,
    let groups : List (Fin 16 × Fin 16 × Fin 16 × Fin 16) :=
      [(0, 4, 8, 12), (1, 5, 9, 13), (2, 6, 10, 14), (3, 7, 11, 15),
        (0, 5, 10, 15), (1, 6, 11, 12), (2, 7, 8, 13), (3, 4, 9, 14)]
    let x := (List.range 10).foldl
      (fun x _ => groups.foldl (fun x g => quarterRound x g.1 g.2.1 g.2.2.1 g.2.2.2) x) st
    (∀ (i : Fin 16) (k : Fin 4),
        (blockFn st)[4 * i.val + k.val]'(by omega) = (x[i] + st[i]).extractLsb' (8 * k.val) 8) ∧
      ∀ (k : Fin 8) (h l : Fin 16), h.val = 2 * k.val + 1 → l.val = 2 * k.val →
        blockWord64 st k = (x[h] + st[h]) ++ (x[l] + st[l])
end

