-- ==== Sys2Proof/Laws/State.lean ====
section
/-! SUPPORT. One lemma per field per update of `State`, each true by `rfl`, so that no proof unfolds a
record update. -/

namespace Sys2Proof.Machine

open Sys2Proof

@[simp] theorem issue_seed (v : U64) (s : State) : (issue v s).seed = s.seed := rfl
@[simp] theorem issue_data (v : U64) (s : State) : (issue v s).data = s.data := rfl
@[simp] theorem issue_key (v : U64) (s : State) : (issue v s).key = s.key := rfl
@[simp] theorem issue_nonce0 (v : U64) (s : State) : (issue v s).nonce0 = s.nonce0 := rfl
@[simp] theorem issue_nonce1 (v : U64) (s : State) : (issue v s).nonce1 = s.nonce1 := rfl
@[simp] theorem issue_res (v : U64) (s : State) : (issue v s).res = s.res := rfl
@[simp] theorem issue_busy (v : U64) (s : State) : (issue v s).busy = true := rfl
@[simp] theorem issue_wign (v : U64) (s : State) : (issue v s).wign = s.wign := rfl
@[simp] theorem issue_err (v : U64) (s : State) : (issue v s).err = s.err := rfl
@[simp] theorem issue_cmdq (v : U64) (s : State) : (issue v s).cmdq = v := rfl
@[simp] theorem issue_accValid (v : U64) (s : State) : (issue v s).accValid = s.accValid := rfl
@[simp] theorem issue_accOvf (v : U64) (s : State) : (issue v s).accOvf = s.accOvf := rfl
@[simp] theorem issue_acc (v : U64) (s : State) : (issue v s).acc = s.acc := rfl
@[simp] theorem issue_ciphValid (v : U64) (s : State) : (issue v s).ciphValid = s.ciphValid := rfl
@[simp] theorem issue_ciph (v : U64) (s : State) : (issue v s).ciph = s.ciph := rfl
@[simp] theorem issue_agenda (v : U64) (s : State) : (issue v s).agenda = s.agenda := rfl
@[simp] theorem issue_replies (v : U64) (s : State) : (issue v s).replies = s.replies := rfl

@[simp] theorem raiseError_seed (c : ErrCode) (s : State) : (raiseError c s).seed = s.seed := rfl
@[simp] theorem raiseError_data (c : ErrCode) (s : State) : (raiseError c s).data = s.data := rfl
@[simp] theorem raiseError_key (c : ErrCode) (s : State) : (raiseError c s).key = s.key := rfl
@[simp] theorem raiseError_nonce0 (c : ErrCode) (s : State) : (raiseError c s).nonce0 = s.nonce0 := rfl
@[simp] theorem raiseError_nonce1 (c : ErrCode) (s : State) : (raiseError c s).nonce1 = s.nonce1 := rfl
@[simp] theorem raiseError_res (c : ErrCode) (s : State) : (raiseError c s).res = s.res := rfl
@[simp] theorem raiseError_busy (c : ErrCode) (s : State) : (raiseError c s).busy = s.busy := rfl
@[simp] theorem raiseError_wign (c : ErrCode) (s : State) : (raiseError c s).wign = s.wign := rfl
@[simp] theorem raiseError_err (c : ErrCode) (s : State) : (raiseError c s).err = c := rfl
@[simp] theorem raiseError_cmdq (c : ErrCode) (s : State) : (raiseError c s).cmdq = s.cmdq := rfl
@[simp] theorem raiseError_accValid (c : ErrCode) (s : State) : (raiseError c s).accValid = s.accValid := rfl
@[simp] theorem raiseError_accOvf (c : ErrCode) (s : State) : (raiseError c s).accOvf = s.accOvf := rfl
@[simp] theorem raiseError_acc (c : ErrCode) (s : State) : (raiseError c s).acc = s.acc := rfl
@[simp] theorem raiseError_ciphValid (c : ErrCode) (s : State) : (raiseError c s).ciphValid = s.ciphValid := rfl
@[simp] theorem raiseError_ciph (c : ErrCode) (s : State) : (raiseError c s).ciph = s.ciph := rfl
@[simp] theorem raiseError_agenda (c : ErrCode) (s : State) : (raiseError c s).agenda = s.agenda := rfl
@[simp] theorem raiseError_replies (c : ErrCode) (s : State) : (raiseError c s).replies = s.replies := rfl

@[simp] theorem complete_seed (s : State) : (complete s).seed = s.seed := rfl
@[simp] theorem complete_data (s : State) : (complete s).data = s.data := rfl
@[simp] theorem complete_key (s : State) : (complete s).key = s.key := rfl
@[simp] theorem complete_nonce0 (s : State) : (complete s).nonce0 = s.nonce0 := rfl
@[simp] theorem complete_nonce1 (s : State) : (complete s).nonce1 = s.nonce1 := rfl
@[simp] theorem complete_res (s : State) : (complete s).res = s.res := rfl
@[simp] theorem complete_busy (s : State) : (complete s).busy = s.busy := rfl
@[simp] theorem complete_wign (s : State) : (complete s).wign = s.wign := rfl
@[simp] theorem complete_err (s : State) : (complete s).err = .ok := rfl
@[simp] theorem complete_cmdq (s : State) : (complete s).cmdq = s.cmdq := rfl
@[simp] theorem complete_accValid (s : State) : (complete s).accValid = s.accValid := rfl
@[simp] theorem complete_accOvf (s : State) : (complete s).accOvf = s.accOvf := rfl
@[simp] theorem complete_acc (s : State) : (complete s).acc = s.acc := rfl
@[simp] theorem complete_ciphValid (s : State) : (complete s).ciphValid = s.ciphValid := rfl
@[simp] theorem complete_ciph (s : State) : (complete s).ciph = s.ciph := rfl
@[simp] theorem complete_agenda (s : State) : (complete s).agenda = s.agenda := rfl
@[simp] theorem complete_replies (s : State) : (complete s).replies = s.replies := rfl

@[simp] theorem performIllegal_seed (s : State) : (performIllegal s).seed = s.seed := rfl
@[simp] theorem performIllegal_data (s : State) : (performIllegal s).data = s.data := rfl
@[simp] theorem performIllegal_key (s : State) : (performIllegal s).key = s.key := rfl
@[simp] theorem performIllegal_nonce0 (s : State) : (performIllegal s).nonce0 = s.nonce0 := rfl
@[simp] theorem performIllegal_nonce1 (s : State) : (performIllegal s).nonce1 = s.nonce1 := rfl
@[simp] theorem performIllegal_res (s : State) : (performIllegal s).res = s.res := rfl
@[simp] theorem performIllegal_busy (s : State) : (performIllegal s).busy = s.busy := rfl
@[simp] theorem performIllegal_wign (s : State) : (performIllegal s).wign = s.wign := rfl
@[simp] theorem performIllegal_err (s : State) : (performIllegal s).err = .illegal := rfl
@[simp] theorem performIllegal_cmdq (s : State) : (performIllegal s).cmdq = s.cmdq := rfl
@[simp] theorem performIllegal_accValid (s : State) : (performIllegal s).accValid = s.accValid := rfl
@[simp] theorem performIllegal_accOvf (s : State) : (performIllegal s).accOvf = s.accOvf := rfl
@[simp] theorem performIllegal_acc (s : State) : (performIllegal s).acc = s.acc := rfl
@[simp] theorem performIllegal_ciphValid (s : State) : (performIllegal s).ciphValid = s.ciphValid := rfl
@[simp] theorem performIllegal_ciph (s : State) : (performIllegal s).ciph = s.ciph := rfl
@[simp] theorem performIllegal_agenda (s : State) : (performIllegal s).agenda = s.agenda := rfl
@[simp] theorem performIllegal_replies (s : State) : (performIllegal s).replies = s.replies := rfl

@[simp] theorem clearBusy_seed (s : State) : (clearBusy s).seed = s.seed := rfl
@[simp] theorem clearBusy_data (s : State) : (clearBusy s).data = s.data := rfl
@[simp] theorem clearBusy_key (s : State) : (clearBusy s).key = s.key := rfl
@[simp] theorem clearBusy_nonce0 (s : State) : (clearBusy s).nonce0 = s.nonce0 := rfl
@[simp] theorem clearBusy_nonce1 (s : State) : (clearBusy s).nonce1 = s.nonce1 := rfl
@[simp] theorem clearBusy_res (s : State) : (clearBusy s).res = s.res := rfl
@[simp] theorem clearBusy_busy (s : State) : (clearBusy s).busy = false := rfl
@[simp] theorem clearBusy_wign (s : State) : (clearBusy s).wign = s.wign := rfl
@[simp] theorem clearBusy_err (s : State) : (clearBusy s).err = s.err := rfl
@[simp] theorem clearBusy_cmdq (s : State) : (clearBusy s).cmdq = s.cmdq := rfl
@[simp] theorem clearBusy_accValid (s : State) : (clearBusy s).accValid = s.accValid := rfl
@[simp] theorem clearBusy_accOvf (s : State) : (clearBusy s).accOvf = s.accOvf := rfl
@[simp] theorem clearBusy_acc (s : State) : (clearBusy s).acc = s.acc := rfl
@[simp] theorem clearBusy_ciphValid (s : State) : (clearBusy s).ciphValid = s.ciphValid := rfl
@[simp] theorem clearBusy_ciph (s : State) : (clearBusy s).ciph = s.ciph := rfl
@[simp] theorem clearBusy_agenda (s : State) : (clearBusy s).agenda = s.agenda := rfl
@[simp] theorem clearBusy_replies (s : State) : (clearBusy s).replies = s.replies := rfl

@[simp] theorem writeRes_seed (ws : List U64) (s : State) : (writeRes ws s).seed = s.seed := rfl
@[simp] theorem writeRes_data (ws : List U64) (s : State) : (writeRes ws s).data = s.data := rfl
@[simp] theorem writeRes_key (ws : List U64) (s : State) : (writeRes ws s).key = s.key := rfl
@[simp] theorem writeRes_nonce0 (ws : List U64) (s : State) : (writeRes ws s).nonce0 = s.nonce0 := rfl
@[simp] theorem writeRes_nonce1 (ws : List U64) (s : State) : (writeRes ws s).nonce1 = s.nonce1 := rfl
@[simp] theorem writeRes_busy (ws : List U64) (s : State) : (writeRes ws s).busy = s.busy := rfl
@[simp] theorem writeRes_wign (ws : List U64) (s : State) : (writeRes ws s).wign = s.wign := rfl
@[simp] theorem writeRes_err (ws : List U64) (s : State) : (writeRes ws s).err = s.err := rfl
@[simp] theorem writeRes_cmdq (ws : List U64) (s : State) : (writeRes ws s).cmdq = s.cmdq := rfl
@[simp] theorem writeRes_accValid (ws : List U64) (s : State) : (writeRes ws s).accValid = s.accValid := rfl
@[simp] theorem writeRes_accOvf (ws : List U64) (s : State) : (writeRes ws s).accOvf = s.accOvf := rfl
@[simp] theorem writeRes_acc (ws : List U64) (s : State) : (writeRes ws s).acc = s.acc := rfl
@[simp] theorem writeRes_ciphValid (ws : List U64) (s : State) : (writeRes ws s).ciphValid = s.ciphValid := rfl
@[simp] theorem writeRes_ciph (ws : List U64) (s : State) : (writeRes ws s).ciph = s.ciph := rfl
@[simp] theorem writeRes_agenda (ws : List U64) (s : State) : (writeRes ws s).agenda = s.agenda := rfl
@[simp] theorem writeRes_replies (ws : List U64) (s : State) : (writeRes ws s).replies = s.replies := rfl

@[simp] theorem setAcc_seed (a : Acc) (s : State) : (setAcc a s).seed = s.seed := rfl
@[simp] theorem setAcc_data (a : Acc) (s : State) : (setAcc a s).data = s.data := rfl
@[simp] theorem setAcc_key (a : Acc) (s : State) : (setAcc a s).key = s.key := rfl
@[simp] theorem setAcc_nonce0 (a : Acc) (s : State) : (setAcc a s).nonce0 = s.nonce0 := rfl
@[simp] theorem setAcc_nonce1 (a : Acc) (s : State) : (setAcc a s).nonce1 = s.nonce1 := rfl
@[simp] theorem setAcc_res (a : Acc) (s : State) : (setAcc a s).res = s.res := rfl
@[simp] theorem setAcc_busy (a : Acc) (s : State) : (setAcc a s).busy = s.busy := rfl
@[simp] theorem setAcc_wign (a : Acc) (s : State) : (setAcc a s).wign = s.wign := rfl
@[simp] theorem setAcc_err (a : Acc) (s : State) : (setAcc a s).err = s.err := rfl
@[simp] theorem setAcc_cmdq (a : Acc) (s : State) : (setAcc a s).cmdq = s.cmdq := rfl
@[simp] theorem setAcc_accValid (a : Acc) (s : State) : (setAcc a s).accValid = s.accValid := rfl
@[simp] theorem setAcc_accOvf (a : Acc) (s : State) : (setAcc a s).accOvf = s.accOvf := rfl
@[simp] theorem setAcc_acc (a : Acc) (s : State) : (setAcc a s).acc = a := rfl
@[simp] theorem setAcc_ciphValid (a : Acc) (s : State) : (setAcc a s).ciphValid = s.ciphValid := rfl
@[simp] theorem setAcc_ciph (a : Acc) (s : State) : (setAcc a s).ciph = s.ciph := rfl
@[simp] theorem setAcc_agenda (a : Acc) (s : State) : (setAcc a s).agenda = s.agenda := rfl
@[simp] theorem setAcc_replies (a : Acc) (s : State) : (setAcc a s).replies = s.replies := rfl

@[simp] theorem setCipher_seed (e : Cipher) (s : State) : (setCipher e s).seed = s.seed := rfl
@[simp] theorem setCipher_data (e : Cipher) (s : State) : (setCipher e s).data = s.data := rfl
@[simp] theorem setCipher_key (e : Cipher) (s : State) : (setCipher e s).key = s.key := rfl
@[simp] theorem setCipher_nonce0 (e : Cipher) (s : State) : (setCipher e s).nonce0 = s.nonce0 := rfl
@[simp] theorem setCipher_nonce1 (e : Cipher) (s : State) : (setCipher e s).nonce1 = s.nonce1 := rfl
@[simp] theorem setCipher_res (e : Cipher) (s : State) : (setCipher e s).res = s.res := rfl
@[simp] theorem setCipher_busy (e : Cipher) (s : State) : (setCipher e s).busy = s.busy := rfl
@[simp] theorem setCipher_wign (e : Cipher) (s : State) : (setCipher e s).wign = s.wign := rfl
@[simp] theorem setCipher_err (e : Cipher) (s : State) : (setCipher e s).err = s.err := rfl
@[simp] theorem setCipher_cmdq (e : Cipher) (s : State) : (setCipher e s).cmdq = s.cmdq := rfl
@[simp] theorem setCipher_accValid (e : Cipher) (s : State) : (setCipher e s).accValid = s.accValid := rfl
@[simp] theorem setCipher_accOvf (e : Cipher) (s : State) : (setCipher e s).accOvf = s.accOvf := rfl
@[simp] theorem setCipher_acc (e : Cipher) (s : State) : (setCipher e s).acc = s.acc := rfl
@[simp] theorem setCipher_ciphValid (e : Cipher) (s : State) : (setCipher e s).ciphValid = s.ciphValid := rfl
@[simp] theorem setCipher_ciph (e : Cipher) (s : State) : (setCipher e s).ciph = e := rfl
@[simp] theorem setCipher_agenda (e : Cipher) (s : State) : (setCipher e s).agenda = s.agenda := rfl
@[simp] theorem setCipher_replies (e : Cipher) (s : State) : (setCipher e s).replies = s.replies := rfl

@[simp] theorem resetBlock_seed (s : State) : (resetBlock s).seed = State.reset.seed := rfl
@[simp] theorem resetBlock_data (s : State) : (resetBlock s).data = State.reset.data := rfl
@[simp] theorem resetBlock_key (s : State) : (resetBlock s).key = State.reset.key := rfl
@[simp] theorem resetBlock_nonce0 (s : State) : (resetBlock s).nonce0 = State.reset.nonce0 := rfl
@[simp] theorem resetBlock_nonce1 (s : State) : (resetBlock s).nonce1 = State.reset.nonce1 := rfl
@[simp] theorem resetBlock_res (s : State) : (resetBlock s).res = State.reset.res := rfl
@[simp] theorem resetBlock_busy (s : State) : (resetBlock s).busy = State.reset.busy := rfl
@[simp] theorem resetBlock_wign (s : State) : (resetBlock s).wign = State.reset.wign := rfl
@[simp] theorem resetBlock_err (s : State) : (resetBlock s).err = State.reset.err := rfl
@[simp] theorem resetBlock_cmdq (s : State) : (resetBlock s).cmdq = State.reset.cmdq := rfl
@[simp] theorem resetBlock_accValid (s : State) : (resetBlock s).accValid = State.reset.accValid := rfl
@[simp] theorem resetBlock_accOvf (s : State) : (resetBlock s).accOvf = State.reset.accOvf := rfl
@[simp] theorem resetBlock_acc (s : State) : (resetBlock s).acc = State.reset.acc := rfl
@[simp] theorem resetBlock_ciphValid (s : State) : (resetBlock s).ciphValid = State.reset.ciphValid := rfl
@[simp] theorem resetBlock_ciph (s : State) : (resetBlock s).ciph = State.reset.ciph := rfl
@[simp] theorem resetBlock_agenda (s : State) : (resetBlock s).agenda = s.agenda := rfl
@[simp] theorem resetBlock_replies (s : State) : (resetBlock s).replies = s.replies := rfl

@[simp] theorem withFetchWord_seed (s : State) (n w : Nat) : (s.withFetchWord n w).seed = s.seed := rfl
@[simp] theorem withFetchWord_data (s : State) (n w : Nat) : (s.withFetchWord n w).data = s.data := rfl
@[simp] theorem withFetchWord_key (s : State) (n w : Nat) : (s.withFetchWord n w).key = s.key := rfl
@[simp] theorem withFetchWord_nonce0 (s : State) (n w : Nat) : (s.withFetchWord n w).nonce0 = s.nonce0 := rfl
@[simp] theorem withFetchWord_nonce1 (s : State) (n w : Nat) : (s.withFetchWord n w).nonce1 = s.nonce1 := rfl
@[simp] theorem withFetchWord_res (s : State) (n w : Nat) : (s.withFetchWord n w).res = s.res := rfl
@[simp] theorem withFetchWord_busy (s : State) (n w : Nat) : (s.withFetchWord n w).busy = true := rfl
@[simp] theorem withFetchWord_wign (s : State) (n w : Nat) : (s.withFetchWord n w).wign = s.wign := rfl
@[simp] theorem withFetchWord_err (s : State) (n w : Nat) : (s.withFetchWord n w).err = s.err := rfl
@[simp] theorem withFetchWord_cmdq (s : State) (n w : Nat) : (s.withFetchWord n w).cmdq = BitVec.ofNat 64 (w % 2 ^ n) := rfl
@[simp] theorem withFetchWord_accValid (s : State) (n w : Nat) : (s.withFetchWord n w).accValid = s.accValid := rfl
@[simp] theorem withFetchWord_accOvf (s : State) (n w : Nat) : (s.withFetchWord n w).accOvf = s.accOvf := rfl
@[simp] theorem withFetchWord_acc (s : State) (n w : Nat) : (s.withFetchWord n w).acc = s.acc := rfl
@[simp] theorem withFetchWord_ciphValid (s : State) (n w : Nat) : (s.withFetchWord n w).ciphValid = s.ciphValid := rfl
@[simp] theorem withFetchWord_ciph (s : State) (n w : Nat) : (s.withFetchWord n w).ciph = s.ciph := rfl
@[simp] theorem withFetchWord_agenda (s : State) (n w : Nat) : (s.withFetchWord n w).agenda = .core :: s.agenda := rfl
@[simp] theorem withFetchWord_replies (s : State) (n w : Nat) : (s.withFetchWord n w).replies = s.replies := rfl

end Sys2Proof.Machine
end

