-- ==== Sys2Proof/Laws/Bytes.lean ====
section
/-! SUPPORT. What the byte-string operations of Machine/Operands.lean do (spec 00_scope.md R16). -/

namespace Sys2Proof.Machine

open Sys2Proof

@[simp] theorem leNat_nil : leNat [] = 0 := rfl

@[simp] theorem leNat_cons (b : Byte) (s : List Byte) : leNat (b :: s) = b.toNat + 256 * leNat s := rfl

theorem leNat_append (s t : List Byte) : leNat (s ++ t) = leNat s + 256 ^ s.length * leNat t := by
  induction s with
  | nil => simp
  | cons b s ih => simp only [List.cons_append, leNat_cons, ih, List.length_cons, pow_succ]; ring

theorem leNat_lt (s : List Byte) : leNat s < 256 ^ s.length := by
  induction s with
  | nil => simp
  | cons b s ih =>
    have hb : b.toNat < 256 := b.isLt
    simp only [leNat_cons, List.length_cons, pow_succ]
    omega

/-- The bytes of a string are the base-256 digits of its number. -/
theorem leNat_digit (s : List Byte) (k : Nat) : leNat s / 256 ^ k % 256 = ((s[k]?).getD 0).toNat := by
  induction s generalizing k with
  | nil => simp
  | cons b s ih =>
    have hb : b.toNat < 256 := b.isLt
    cases k with
    | zero => simp; omega
    | succ k =>
      rw [leNat_cons, pow_succ', ← Nat.div_div_eq_div_mul, show (b.toNat + 256 * leNat s) / 256 = leNat s by omega, ih]
      simp

@[simp] theorem leNat_zeros (n : Nat) : leNat (zeros n) = 0 := by
  induction n with
  | zero => rfl
  | succ n ih => rw [show zeros (n + 1) = 0 :: zeros n from rfl, leNat_cons, ih]; rfl

@[simp] theorem zeros_length (n : Nat) : (zeros n).length = n := List.length_replicate

@[simp] theorem toBytesLe_length {w : Nat} (v : BitVec w) (n : Nat) : (toBytesLe v n).length = n := by
  simp [toBytesLe]

theorem toBytesLe_getElem {w : Nat} (v : BitVec w) (n k : Nat) (h : k < (toBytesLe v n).length) :
    (toBytesLe v n)[k] = v.extractLsb' (8 * k) 8 := by
  simp [toBytesLe]

/-- `tobytes_le` yields the low bytes of a number. -/
theorem leNat_toBytesLe {w : Nat} (v : BitVec w) (n : Nat) : leNat (toBytesLe v n) = v.toNat % 256 ^ n := by
  induction n with
  | zero => simp [toBytesLe, Nat.mod_one]
  | succ n ih =>
    have h : toBytesLe v (n + 1) = toBytesLe v n ++ [v.extractLsb' (8 * n) 8] := by
      simp [toBytesLe, List.range_succ]
    rw [h, leNat_append, ih, toBytesLe_length, pow_succ, Nat.mod_mul]
    simp [BitVec.extractLsb'_toNat, Nat.shiftRight_eq_div_pow, pow_mul]

/-- `le64` undoes `tobytes_le` (R16). -/
@[simp] theorem le64_toBytesLe (v : U64) : le64 (toBytesLe v 8) = v := by
  apply BitVec.eq_of_toNat_eq
  have := v.isLt
  simp only [le64, leNat_toBytesLe, BitVec.toNat_ofNat]
  omega

/-- Byte k of `le64(s)` is `s[k]` (R16). -/
theorem le64_byte (s : List Byte) (k : Nat) (h : k < 8) : (le64 s).extractLsb' (8 * k) 8 = (s[k]?).getD 0 := by
  apply BitVec.eq_of_toNat_eq
  have hd : leNat s % 2 ^ 64 / 256 ^ k % 256 = leNat s / 256 ^ k % 256 := by
    have h1 : (2 : Nat) ^ 64 = 256 ^ k * 256 ^ (8 - k) := by
      rw [← pow_add, show k + (8 - k) = 8 by omega]; norm_num
    rw [h1, Nat.mod_mul_right_div_self, show (256 : Nat) ^ (8 - k) = 256 * 256 ^ (7 - k) by
      rw [← pow_succ', show 8 - k = 7 - k + 1 by omega], Nat.mod_mul_right_mod]
  rw [← leNat_digit, ← hd]
  simp [le64, BitVec.extractLsb'_toNat, Nat.shiftRight_eq_div_pow, pow_mul]

/-- A `u64` is determined by its eight bytes. -/
theorem u64_ext_bytes {x y : U64} (h : ∀ k, k < 8 → x.extractLsb' (8 * k) 8 = y.extractLsb' (8 * k) 8) : x = y := by
  apply BitVec.eq_of_getLsbD_eq
  intro i hi
  have hb := congrArg (fun b : Byte => b.getLsbD (i % 8)) (h (i / 8) (by omega))
  simpa [BitVec.getLsbD_extractLsb', Nat.mod_lt, Nat.div_add_mod] using hb

@[simp] theorem byteLane_le64 (s : List Byte) (k : Nat) (h : k < 8) : byteLane (le64 s) k = (s[k]?).getD 0 :=
  le64_byte s k h

theorem slice_length (s : List Byte) (i j : Nat) : (slice s i j).length = min (j - i) (s.length - i) := by
  simp [slice]

theorem slice_getElem? (s : List Byte) (i j k : Nat) :
    (slice s i j)[k]? = if k < j - i then s[i + k]? else none := by
  simp [slice, List.getElem?_take, List.getElem?_drop]

@[simp] theorem slice_zero (s : List Byte) (j : Nat) : slice s 0 j = s.take j := by simp [slice]

theorem overwrite_getElem {n : Nat} (buf : Vector Byte n) (i : Nat) (s : List Byte) (k : Nat) (h : k < n) :
    (overwrite buf i s)[k] = if i ≤ k then (s[k - i]?).getD buf[k] else buf[k] := by
  simp [overwrite]

/-- Overwriting a slice that fits replaces exactly that slice. -/
theorem overwrite_toList {n : Nat} (buf : Vector Byte n) (i : Nat) (s : List Byte) (h : i + s.length ≤ n) :
    (overwrite buf i s).toList = buf.toList.take i ++ s ++ buf.toList.drop (i + s.length) := by
  apply List.ext_getElem?
  intro k
  rcases Nat.lt_or_ge k n with hk | hk
  · have h1 : (overwrite buf i s).toList[k]? = some ((overwrite buf i s)[k]) := by
      rw [List.getElem?_eq_getElem (by simpa using hk)]; simp
    have h2 : buf.toList[k]? = some buf[k] := by
      rw [List.getElem?_eq_getElem (by simpa using hk)]; simp
    rw [h1, overwrite_getElem]
    by_cases hi : i ≤ k
    · by_cases hj : k - i < s.length
      · rw [List.append_assoc, List.getElem?_append_right (by simp; omega)]
        rw [List.getElem?_append_left (by simp; omega)]
        simp [hi, show min i n = i by omega, List.getElem?_eq_getElem hj]
      · rw [List.getElem?_append_right (by simp; omega)]
        rw [List.getElem?_drop, if_pos hi, List.getElem?_eq_none (by omega : s.length ≤ k - i)]
        rw [show i + s.length + (k - (buf.toList.take i ++ s).length) = k by simp; omega, h2]; rfl
    · rw [List.append_assoc, List.getElem?_append_left (by simp; omega)]
      rw [List.getElem?_take_of_lt (by omega), h2, if_neg hi]
  · rw [List.getElem?_eq_none (by simpa using hk), List.getElem?_eq_none (by simp; omega)]

@[simp] theorem dataBytes_length (d : Vector U64 4) : (dataBytes d).length = 32 := by simp [dataBytes]

@[simp] theorem dbytes_length (s : State) : (dbytes s).length = 32 := dataBytes_length s.data

/-- Byte k of the data operand is byte k mod 8 of DATA(k div 8) (R38). -/
theorem dataBytes_getElem? (d : Vector U64 4) (k : Nat) (h : k < 32) :
    (dataBytes d)[k]? = some (byteLane (d[k / 8]'(by omega)) (k % 8)) := by
  have key : ∀ k : Fin 32, (dataBytes d)[k.val]? = some (byteLane (d[k.val / 8]'(by omega)) (k.val % 8)) := by
    intro k; fin_cases k <;> rfl
  exact key ⟨k, h⟩

@[simp] theorem leWords_length (n : Nat) (s : List Byte) : (leWords n s).length = n := by simp [leWords]

theorem leWords_getElem (n : Nat) (s : List Byte) (k : Nat) (h : k < (leWords n s).length) :
    (leWords n s)[k] = le64 (slice s (8 * k) (8 * k + 8)) := by
  simp [leWords]

/-- `le64` of an exclusive-or of byte strings is the exclusive-or of their words. -/
theorem le64_zipWith_xor (s t : List Byte) (hs : s.length = 8) (ht : t.length = 8) :
    le64 (List.zipWith (· ^^^ ·) s t) = le64 s ^^^ le64 t := by
  apply u64_ext_bytes
  intro k hk
  rw [le64_byte _ _ hk]
  have hx : (le64 s ^^^ le64 t).extractLsb' (8 * k) 8
      = (le64 s).extractLsb' (8 * k) 8 ^^^ (le64 t).extractLsb' (8 * k) 8 := by
    ext i hi; simp
  rw [hx, le64_byte _ _ hk, le64_byte _ _ hk]
  simp [List.getElem?_zipWith, List.getElem?_eq_getElem (hs ▸ hk : k < s.length),
    List.getElem?_eq_getElem (ht ▸ hk : k < t.length)]

end Sys2Proof.Machine
end

