-- ==== Sys2Proof/Laws/Exec.lean ====
section
/-! SUPPORT. What the shared operations of Machine/Ops.lean and each meaning can do. -/

namespace Sys2Proof.Machine

open Sys2Proof

@[simp] theorem guarded_some (c : ErrCode) (body : State → State) (s : State) :
    guarded (some c) body s = raiseError c s := rfl

@[simp] theorem guarded_none (body : State → State) (s : State) : guarded none body s = body s := rfl

/-- R104: a guarded command raises the failed check's code or runs its body. -/
theorem guarded_cases (f : Option ErrCode) (body : State → State) (s : State) :
    (∃ c, f = some c ∧ guarded f body s = raiseError c s) ∨ (f = none ∧ guarded f body s = body s) := by
  cases f with
  | none => exact .inr ⟨rfl, rfl⟩
  | some c => exact .inl ⟨c, rfl, rfl⟩

theorem accCheck_invalid {s : State} (h : s.accValid = false) : accCheck s = some .noAcc := by simp [accCheck, h]

theorem accCheck_faulted {s : State} (h : s.accValid = true) (h' : s.accOvf = true) :
    accCheck s = some .faulted := by simp [accCheck, h, h']

theorem accCheck_pass {s : State} (h : s.accValid = true) (h' : s.accOvf = false) : accCheck s = none := by
  simp [accCheck, h, h']

/-- The accumulator checks, said once (R104). -/
theorem accCheck_cases (s : State) :
    (s.accValid = false ∧ accCheck s = some .noAcc) ∨
      (s.accValid = true ∧ s.accOvf = true ∧ accCheck s = some .faulted) ∨
      (s.accValid = true ∧ s.accOvf = false ∧ accCheck s = none) := by
  cases hv : s.accValid <;> cases ho : s.accOvf <;> simp [accCheck, hv, ho]

theorem cipherCheck_invalid {s : State} (h : s.ciphValid = false) : cipherCheck s = some .noCipher := by
  simp [cipherCheck, h]

theorem cipherCheck_pass {s : State} (h : s.ciphValid = true) : cipherCheck s = none := by simp [cipherCheck, h]

/-- The check of the stream commands, said once (R104). -/
theorem cipherCheck_cases (s : State) :
    (s.ciphValid = false ∧ cipherCheck s = some .noCipher) ∨ (s.ciphValid = true ∧ cipherCheck s = none) := by
  cases hv : s.ciphValid <;> simp [cipherCheck, hv]

/-- R43, R268: RES0.. take the words, a register past them keeps its value. -/
theorem writeRes_getElem (ws : List U64) (s : State) (k : Nat) (h : k < 8) :
    (writeRes ws s).res[k] = (ws[k]?).getD s.res[k] := by simp [writeRes]

theorem writeRes_above (ws : List U64) (s : State) (k : Nat) (h : k < 8) (hk : ws.length ≤ k) :
    (writeRes ws s).res[k] = s.res[k] := by
  rw [writeRes_getElem _ _ _ h, List.getElem?_eq_none hk]; rfl

theorem writeRes_below (ws : List U64) (s : State) (k : Nat) (h : k < 8) (hk : k < ws.length) :
    (writeRes ws s).res[k] = ws[k] := by
  rw [writeRes_getElem _ _ _ h, List.getElem?_eq_getElem hk]; rfl

@[simp] theorem writeRes_one (a : U64) (s : State) : writeRes [a] s = { s with res := s.res.set 0 a } := by
  unfold writeRes; congr 1; ext k hk; interval_cases k <;> simp

@[simp] theorem writeRes_two (a b : U64) (s : State) :
    writeRes [a, b] s = { s with res := (s.res.set 0 a).set 1 b } := by
  unfold writeRes; congr 1; ext k hk; interval_cases k <;> simp

@[simp] theorem writeRes_four (a b c d : U64) (s : State) :
    writeRes [a, b, c, d] s = { s with res := (((s.res.set 0 a).set 1 b).set 2 c).set 3 d } := by
  unfold writeRes; congr 1; ext k hk; interval_cases k <;> simp

/-- Eight words replace all of RES. -/
theorem writeRes_eight (v : Vector U64 8) (s : State) : writeRes v.toList s = { s with res := v } := by
  unfold writeRes; congr 1; ext k hk; interval_cases k <;> simp

/-- `perform(c)` of a legal command, as a function on states (R104). -/
def perform : Instr → State → State
  | .nop, s => performNop s
  | .init, s => performInit Config.params s
  | .ins len, s => performIns Config.params len s
  | .mix, s => performMix Config.params s
  | .h64, s => performH64 Config.params s
  | .h128, s => performH128 Config.params s
  | .h256, s => performH256 Config.params s
  | .sec128, s => performSec128 Config.params s
  | .sec256, s => performSec256 Config.params s
  | .sec512, s => performSec512 Config.params s
  | .cinit, s => performCinit Config.params s
  | .cgen, s => performCgen s
  | .cxor len, s => performCxor len s

/-- Every meaning answers `perform`'s state: it neither faults nor refuses (R101, R231). -/
@[simp] theorem exec_eq_perform (i : Instr) (s : State) : exec i s = .next (perform i s) := by
  cases i <;> rfl

@[simp] theorem next_inj {s t : State} :
    (Host.Outcome.next s : Host.Outcome State Fault Refusal) = .next t ↔ s = t := by
  constructor
  · intro h; injection h
  · rintro rfl; rfl

/-- Everything INS can do (R143): refuse, or overflow, or absorb. -/
theorem performIns_cases (P : Params) (len : Nat) (s : State) (h : len ≤ 32) :
    (s.accValid = false ∧ performIns P len s = raiseError .noAcc s) ∨
      (s.accValid = true ∧ s.accOvf = true ∧ performIns P len s = raiseError .faulted s) ∨
      (s.accValid = true ∧ s.accOvf = false ∧ 2 ^ 64 - 1 < s.acc.count.toNat + len ∧
        performIns P len s = raiseError .overflow { s with accOvf := true }) ∨
      (s.accValid = true ∧ s.accOvf = false ∧ s.acc.count.toNat + len ≤ 2 ^ 64 - 1 ∧
        performIns P len s = complete (setAcc (absorb P s.acc ((dbytes s).take len)) s)) := by
  have hl : ¬ dataMax < len := by simpa [dataMax] using h
  rcases accCheck_cases s with ⟨hv, hc⟩ | ⟨hv, ho, hc⟩ | ⟨hv, ho, hc⟩
  · exact .inl ⟨hv, by simp only [performIns, if_neg hl, hc, guarded_some]⟩
  · exact .inr (.inl ⟨hv, ho, by simp only [performIns, if_neg hl, hc, guarded_some]⟩)
  · rcases Nat.lt_or_ge (2 ^ 64 - 1) (s.acc.count.toNat + len) with hn | hn
    · exact .inr (.inr (.inl ⟨hv, ho, hn, by simp only [performIns, if_neg hl, hc, guarded_none, if_pos hn]⟩))
    · exact .inr (.inr (.inr ⟨hv, ho, hn, by
        simp only [performIns, if_neg hl, hc, guarded_none, if_neg (Nat.not_lt.2 hn), slice_zero]⟩))

/-- A command term with no encoding is refused as ILLEGAL (R83, R143). -/
theorem performIns_illegal (P : Params) (len : Nat) (s : State) (h : 32 < len) :
    performIns P len s = raiseError .illegal s := by
  simp only [performIns, if_pos (show dataMax < len from h)]

/-- Everything CGEN can do (R211). -/
theorem performCgen_cases (s : State) :
    (s.ciphValid = false ∧ performCgen s = raiseError .noCipher s) ∨
      (s.ciphValid = true ∧
        performCgen s = complete (writeRes (leWords 8 (cipherGen s.ciph).ks.toList) (setCipher (cipherGen s.ciph) s))) := by
  rcases cipherCheck_cases s with ⟨hv, hc⟩ | ⟨hv, hc⟩
  · exact .inl ⟨hv, by simp only [performCgen, hc, guarded_some]⟩
  · exact .inr ⟨hv, by simp only [performCgen, hc, guarded_none]⟩

/-- Everything CXOR can do (R212). -/
theorem performCxor_cases (len : Nat) (s : State) (h : len ≤ 32) :
    (s.ciphValid = false ∧ performCxor len s = raiseError .noCipher s) ∨
      (s.ciphValid = true ∧
        performCxor len s =
          complete (writeRes (leWords 4 ((cipherXor s.ciph ((dbytes s).take len)).2 ++ zeros (32 - len)))
            (setCipher (cipherXor s.ciph ((dbytes s).take len)).1 s))) := by
  have hl : ¬ dataMax < len := by simpa [dataMax] using h
  rcases cipherCheck_cases s with ⟨hv, hc⟩ | ⟨hv, hc⟩
  · exact .inl ⟨hv, by simp only [performCxor, if_neg hl, hc, guarded_some]⟩
  · exact .inr ⟨hv, by simp only [performCxor, if_neg hl, hc, guarded_none, slice_zero]⟩

theorem performCxor_illegal (len : Nat) (s : State) (h : 32 < len) :
    performCxor len s = raiseError .illegal s := by
  simp only [performCxor, if_pos (show dataMax < len from h)]

/-- The result words of a finalization command, and none for another command (R163, R181). -/
def finalWords (s : State) : Instr → List U64
  | .h64 => [fin64 Config.params s.acc]
  | .h128 => (fin128 Config.params s.acc).toList
  | .h256 => (fin256 Config.params s.acc).toList
  | .sec128 => secure Config.params s.acc 2 (keyWords s) (nonceWords s)
  | .sec256 => secure Config.params s.acc 4 (keyWords s) (nonceWords s)
  | .sec512 => secure Config.params s.acc 8 (keyWords s) (nonceWords s)
  | .nop => []
  | .init => []
  | .ins _ => []
  | .mix => []
  | .cinit => []
  | .cgen => []
  | .cxor _ => []

/-- Everything a finalization command can do (R104, R164 to R166, R183 to R185). -/
theorem perform_finalizer (i : Instr) (s : State) (h : finalizer i = true) :
    perform i s = guarded (accCheck s) (fun s => complete (writeRes (finalWords s i) s)) s := by
  cases i <;> first | (cases h; done) | rfl

theorem finalWords_length (i : Instr) (s : State) (h : finalizer i = true) :
    (finalWords s i).length = resultWords i := by
  cases i <;> first | (simp [finalWords, resultWords, secure]; done) | cases h

/-- What a command does when no check of R104 fails and INS does not overflow, before ERR <- OK. -/
def effect : Instr → State → State
  | .nop, s => s
  | .init, s => { setAcc (initAcc Config.params s.seed) s with accValid := true, accOvf := false }
  | .ins len, s => setAcc (absorb Config.params s.acc ((dbytes s).take len)) s
  | .mix, s => writeRes [mix Config.params s.data[0] s.data[1]] s
  | .h64, s => writeRes (finalWords s .h64) s
  | .h128, s => writeRes (finalWords s .h128) s
  | .h256, s => writeRes (finalWords s .h256) s
  | .sec128, s => writeRes (finalWords s .sec128) s
  | .sec256, s => writeRes (finalWords s .sec256) s
  | .sec512, s => writeRes (finalWords s .sec512) s
  | .cinit, s =>
    { setCipher (cipherNew Config.params (keyWords s) (nonceWords s) ctrInit) s with ciphValid := true }
  | .cgen, s => writeRes (leWords 8 (cipherGen s.ciph).ks.toList) (setCipher (cipherGen s.ciph) s)
  | .cxor len, s =>
    writeRes (leWords 4 ((cipherXor s.ciph ((dbytes s).take len)).2 ++ zeros (32 - len)))
      (setCipher (cipherXor s.ciph ((dbytes s).take len)).1 s)

/-- The state in which R104 lets the body of a command with an encoding run to its end. -/
def passes (i : Instr) (s : State) : Prop :=
  (accCommand i = true → s.accValid = true ∧ s.accOvf = false) ∧
    (streamCommand i = true → s.ciphValid = true) ∧ insOverflows s i = false

theorem effect_finalizer (i : Instr) (s : State) (h : finalizer i = true) :
    effect i s = writeRes (finalWords s i) s := by
  cases i <;> first | (cases h; done) | rfl

theorem accCommand_of_finalizer {i : Instr} (h : finalizer i = true) : accCommand i = true := by
  cases i <;> first | (cases h; done) | rfl

theorem streamCommand_of_finalizer {i : Instr} (h : finalizer i = true) : streamCommand i = false := by
  cases i <;> first | (cases h; done) | rfl

theorem insOverflows_of_finalizer {i : Instr} (s : State) (h : finalizer i = true) : insOverflows s i = false := by
  cases i <;> first | (cases h; done) | rfl

theorem perform_finalizer_cases (i : Instr) (s : State) (h : finalizer i = true) :
    (s.accValid = false ∧ perform i s = raiseError .noAcc s) ∨
      (s.accValid = true ∧ s.accOvf = true ∧ perform i s = raiseError .faulted s) ∨
      (s.accValid = true ∧ s.accOvf = false ∧ perform i s = complete (effect i s)) := by
  rw [perform_finalizer i s h, effect_finalizer i s h]
  rcases accCheck_cases s with ⟨hv, hc⟩ | ⟨hv, ho, hc⟩ | ⟨hv, ho, hc⟩
  · exact .inl ⟨hv, by rw [hc]; rfl⟩
  · exact .inr (.inl ⟨hv, ho, by rw [hc]; rfl⟩)
  · exact .inr (.inr ⟨hv, ho, by rw [hc]; rfl⟩)

/-- Everything a command with an encoding can do (R104, R232): raise NOACC, FAULTED or NOCIPHER and change
nothing else, overflow, or have its effect and end with OK. -/
theorem perform_cases (i : Instr) (s : State) (hw : i.wellFormed = true) :
    (accCommand i = true ∧ s.accValid = false ∧ perform i s = raiseError .noAcc s) ∨
      (accCommand i = true ∧ s.accValid = true ∧ s.accOvf = true ∧ perform i s = raiseError .faulted s) ∨
      (streamCommand i = true ∧ s.ciphValid = false ∧ perform i s = raiseError .noCipher s) ∨
      ((∃ len, i = .ins len) ∧ s.accValid = true ∧ s.accOvf = false ∧ insOverflows s i = true ∧
        perform i s = raiseError .overflow { s with accOvf := true }) ∨
      (passes i s ∧ perform i s = complete (effect i s)) := by
  by_cases hf : finalizer i = true
  · rcases perform_finalizer_cases i s hf with ⟨h1, h2⟩ | ⟨h1, h2, h3⟩ | ⟨h1, h2, h3⟩
    · exact .inl ⟨accCommand_of_finalizer hf, h1, h2⟩
    · exact .inr (.inl ⟨accCommand_of_finalizer hf, h1, h2, h3⟩)
    · exact .inr (.inr (.inr (.inr ⟨⟨fun _ => ⟨h1, h2⟩, by simp [streamCommand_of_finalizer hf],
        insOverflows_of_finalizer s hf⟩, h3⟩)))
  · have hp : ∀ j : Instr, accCommand j = false → streamCommand j = false → insOverflows s j = false → passes j s :=
      fun j h1 h2 h3 => ⟨by simp [h1], by simp [h2], h3⟩
    cases i with
    | h64 => simp [finalizer] at hf
    | h128 => simp [finalizer] at hf
    | h256 => simp [finalizer] at hf
    | sec128 => simp [finalizer] at hf
    | sec256 => simp [finalizer] at hf
    | sec512 => simp [finalizer] at hf
    | nop => exact .inr (.inr (.inr (.inr ⟨hp _ rfl rfl rfl, rfl⟩)))
    | init => exact .inr (.inr (.inr (.inr ⟨hp _ rfl rfl rfl, rfl⟩)))
    | mix => exact .inr (.inr (.inr (.inr ⟨hp _ rfl rfl rfl, rfl⟩)))
    | cinit => exact .inr (.inr (.inr (.inr ⟨hp _ rfl rfl rfl, rfl⟩)))
    | cgen =>
      rcases performCgen_cases s with ⟨hv, h⟩ | ⟨hv, h⟩
      · exact .inr (.inr (.inl ⟨rfl, hv, h⟩))
      · exact .inr (.inr (.inr (.inr ⟨⟨by simp [accCommand], fun _ => hv, rfl⟩, h⟩)))
    | cxor len =>
      rcases performCxor_cases len s (by simpa [Instr.wellFormed] using hw) with ⟨hv, h⟩ | ⟨hv, h⟩
      · exact .inr (.inr (.inl ⟨rfl, hv, h⟩))
      · exact .inr (.inr (.inr (.inr ⟨⟨by simp [accCommand], fun _ => hv, rfl⟩, h⟩)))
    | ins len =>
      rcases performIns_cases Config.params len s (by simpa [Instr.wellFormed] using hw) with
        ⟨hv, h⟩ | ⟨hv, ho, h⟩ | ⟨hv, ho, hn, h⟩ | ⟨hv, ho, hn, h⟩
      · exact .inl ⟨rfl, hv, h⟩
      · exact .inr (.inl ⟨rfl, hv, ho, h⟩)
      · exact .inr (.inr (.inr (.inl ⟨⟨len, rfl⟩, hv, ho, decide_eq_true hn, h⟩)))
      · exact .inr (.inr (.inr (.inr ⟨⟨fun _ => ⟨hv, ho⟩, by simp [streamCommand],
          decide_eq_false (Nat.not_lt.2 hn)⟩, h⟩)))

/-- A command term with no encoding is refused as ILLEGAL (R83). -/
theorem perform_illFormed (i : Instr) (s : State) (hw : i.wellFormed = false) :
    perform i s = raiseError .illegal s := by
  cases i with
  | ins len => exact performIns_illegal _ _ _ (by simpa [Instr.wellFormed] using hw)
  | cxor len => exact performCxor_illegal _ _ (by simpa [Instr.wellFormed] using hw)
  | _ => simp [Instr.wellFormed] at hw

/-- What no command's effect touches (R106). -/
theorem effect_frame (i : Instr) (s : State) :
    effect i s = { s with res := (effect i s).res, acc := (effect i s).acc, accValid := (effect i s).accValid,
                          accOvf := (effect i s).accOvf, ciph := (effect i s).ciph,
                          ciphValid := (effect i s).ciphValid } := by
  cases i <;> rfl

end Sys2Proof.Machine
end

