-- ==== Sys2Proof/Laws/Bus.lean ====
section
/-! SUPPORT. What the host's accesses and one step can do (spec 20_memory.md; 40_command_interface.md R101). -/

namespace Sys2Proof.Machine

open Sys2Proof

/-- Slot 0 to 31 is a register, any other is none (R27). -/
theorem regOfSlot_isSome (k : Nat) : (regOfSlot k).isSome = decide (k < 32) := by
  rcases Nat.lt_or_ge k 32 with h | h
  · interval_cases k <;> rfl
  · have h0 : regOfSlot k = none := by
      unfold regOfSlot; split <;> first | rfl | omega
    simp [h0]; omega

/-- R63: exactly the aligned 8-byte accesses inside the window are legal. -/
theorem regAt_isSome (off width : Nat) :
    (regAt off width).isSome = decide (width = 8 ∧ off % 8 = 0 ∧ off < 256) := by
  unfold regAt
  split
  · rename_i h
    rw [regOfSlot_isSome]; simp [h]; omega
  · rename_i h
    simp only [Option.isSome_none]; symm; simp only [decide_eq_false_iff_not]; tauto

theorem regAt_illegal {off width : Nat} (h : ¬(width = 8 ∧ off % 8 = 0 ∧ off < 256)) : regAt off width = none := by
  have := regAt_isSome off width
  rw [decide_eq_false h] at this
  simpa using this

theorem regAt_legal {off : Nat} (h : off % 8 = 0) (h' : off < 256) : ∃ r, regAt off 8 = some r := by
  have := regAt_isSome off 8
  rw [decide_eq_true ⟨rfl, h, h'⟩] at this
  exact Option.isSome_iff_exists.1 this

/-- `offset(NAME)` reaches the register NAME (R27, R95). -/
@[simp] theorem regAt_offsetOf (r : Reg) : regAt (offsetOf r) 8 = some r := by
  cases r <;> first | rfl | (rename_i k; fin_cases k <;> rfl)

/-- A register is reached at its own offset alone (R27). -/
theorem regAt_eq_some {off width : Nat} {r : Reg} (h : regAt off width = some r) : width = 8 ∧ off = offsetOf r := by
  unfold regAt at h
  split at h
  · rename_i hw
    refine ⟨hw.1, ?_⟩
    have hk : off = 8 * (off / 8) := by omega
    have hlt : off / 8 < 32 := by
      have := regOfSlot_isSome (off / 8)
      rw [h] at this; simpa using this.symm
    generalize off / 8 = k at *
    subst hk
    interval_cases k <;> · injection h with h; subst h; rfl
  · cases h

/-- Everything a write can do (R61, R63, R64). -/
theorem busWrite_cases (off width : Nat) (v : U64) (s : State) :
    (regAt off width = none ∧ busWrite off width v s = .fault (.busError off width)) ∨
      (∃ r, regAt off width = some r ∧ s.busy = true ∧ busWrite off width v s = .next { s with wign := true }) ∨
      (∃ r, regAt off width = some r ∧ s.busy = false ∧ busWrite off width v s = .next (writeReg s r v)) := by
  unfold busWrite
  cases h : regAt off width with
  | none => exact .inl ⟨rfl, rfl⟩
  | some r =>
    cases hb : s.busy
    · exact .inr (.inr ⟨r, rfl, rfl, by simp⟩)
    · exact .inr (.inl ⟨r, rfl, rfl, by simp⟩)

/-- Everything a read can do (R62, R63). -/
theorem busRead_cases (off width : Nat) (s : State) :
    (regAt off width = none ∧ busRead off width s = .fault (.busError off width)) ∨
      (∃ r, regAt off width = some r ∧
        busRead off width s = .next { s with replies := s.replies ++ [readReg s r] }) := by
  unfold busRead
  cases h : regAt off width with
  | none => exact .inl ⟨rfl, rfl⟩
  | some r => exact .inr ⟨r, rfl, rfl⟩

/-- What a write of a register leaves alone (R61): ERR, the objects ACC and CIPH, the results and the host side. -/
theorem writeReg_frame (s : State) (r : Reg) (v : U64) :
    (writeReg s r v).err = s.err ∧ (writeReg s r v).acc = s.acc ∧ (writeReg s r v).accValid = s.accValid ∧
      (writeReg s r v).accOvf = s.accOvf ∧ (writeReg s r v).ciph = s.ciph ∧
      (writeReg s r v).ciphValid = s.ciphValid ∧ (writeReg s r v).res = s.res ∧
      (writeReg s r v).agenda = s.agenda ∧ (writeReg s r v).replies = s.replies := by
  cases r <;> try exact ⟨rfl, rfl, rfl, rfl, rfl, rfl, rfl, rfl, rfl⟩
  simp only [writeReg]; split <;> exact ⟨rfl, rfl, rfl, rfl, rfl, rfl, rfl, rfl, rfl⟩

/-- Everything the core's turn can do (R101, R103). -/
theorem coreTurn_cases (s : State) :
    (s.busy = false ∧ coreTurn s = .next s) ∨
      (∃ i, s.busy = true ∧ decode s.cmdq = some i ∧ coreTurn s = .next (clearBusy (perform i s))) ∨
      (s.busy = true ∧ decode s.cmdq = none ∧ coreTurn s = .next (clearBusy (performIllegal s))) := by
  cases hb : s.busy
  · exact .inl ⟨rfl, by simp [coreTurn, hb]⟩
  · cases hd : decode s.cmdq with
    | none => exact .inr (.inr ⟨rfl, rfl, by simp [coreTurn, hb, performQueued, fetch, hd]⟩)
    | some i => exact .inr (.inl ⟨i, rfl, rfl, by simp [coreTurn, hb, performQueued, fetch, hd]⟩)

theorem coreTurn_next (s : State) : ∃ t, coreTurn s = .next t := by
  rcases coreTurn_cases s with ⟨_, h⟩ | ⟨_, _, _, h⟩ | ⟨_, _, h⟩ <;> exact ⟨_, h⟩

theorem step_nil {s : State} (h : s.agenda = []) : step s = coreTurn s := by
  simp only [step, nextEvent, h]

theorem step_cons {s : State} {e : Event} {rest : List Event} (h : s.agenda = e :: rest) :
    step s = runEvent e { s with agenda := rest } := by
  simp only [step, nextEvent, h]

/-- The step of each event, on the state whose agenda has moved past it (R68). -/
theorem step_core (s : State) (rest : List Event) :
    step { s with agenda := .core :: rest } = coreTurn { s with agenda := rest } := rfl

theorem step_reset (s : State) (rest : List Event) :
    step { s with agenda := .reset :: rest } = .next (resetBlock { s with agenda := rest }) := rfl

theorem step_busWrite (s : State) (off width : Nat) (v : U64) (rest : List Event) :
    step { s with agenda := .busWrite off width v :: rest } = busWrite off width v { s with agenda := rest } := rfl

theorem step_busRead (s : State) (off width : Nat) (rest : List Event) :
    step { s with agenda := .busRead off width :: rest } = busRead off width { s with agenda := rest } := rfl

/-- A run takes a step and goes on from the state it answers. -/
theorem run_next {s t : State} (k : Nat) (h : step s = .next t) : core.run (k + 1) s = core.run k t := by
  have h' : core.step s = .next t := h
  simp only [Host.Core.run, h']

/-- A write while BUSY = 0 has its register's effect (R61). -/
theorem busWrite_idle {off : Nat} {r : Reg} (v : U64) {s : State} (h : regAt off 8 = some r) (hb : s.busy = false) :
    busWrite off 8 v s = .next (writeReg s r v) := by
  simp [busWrite, h, hb]

/-- A write while BUSY = 1 only sets WIGN (R64). -/
theorem busWrite_busy {off : Nat} {r : Reg} (v : U64) {s : State} (h : regAt off 8 = some r) (hb : s.busy = true) :
    busWrite off 8 v s = .next { s with wign := true } := by
  simp [busWrite, h, hb]

/-- A legal read answers the register's value and changes nothing of the block (R62). -/
theorem busRead_legal {off : Nat} {r : Reg} {s : State} (h : regAt off 8 = some r) :
    busRead off 8 s = .next { s with replies := s.replies ++ [readReg s r] } := by
  simp [busRead, h]

/-- Everything one step can do. -/
theorem step_cases {s t : State} (h : step s = .next t) :
    (s.agenda = [] ∧ coreTurn s = .next t) ∨
      (∃ rest, s.agenda = .core :: rest ∧ coreTurn { s with agenda := rest } = .next t) ∨
      (∃ rest, s.agenda = .reset :: rest ∧ t = resetBlock { s with agenda := rest }) ∨
      (∃ off v rest r, s.agenda = .busWrite off 8 v :: rest ∧ regAt off 8 = some r ∧ s.busy = true ∧
        t = { s with agenda := rest, wign := true }) ∨
      (∃ off v rest r, s.agenda = .busWrite off 8 v :: rest ∧ regAt off 8 = some r ∧ s.busy = false ∧
        t = writeReg { s with agenda := rest } r v) ∨
      (∃ off rest r, s.agenda = .busRead off 8 :: rest ∧ regAt off 8 = some r ∧
        t = { s with agenda := rest, replies := s.replies ++ [readReg { s with agenda := rest } r] }) := by
  cases ha : s.agenda with
  | nil => exact .inl ⟨rfl, (step_nil ha).symm.trans h⟩
  | cons e rest =>
    replace h := (step_cons ha).symm.trans h
    cases e with
    | core => exact .inr (.inl ⟨rest, rfl, h⟩)
    | reset => exact .inr (.inr (.inl ⟨rest, rfl, (next_inj.1 h).symm⟩))
    | busWrite off width v =>
      rcases busWrite_cases off width v { s with agenda := rest } with ⟨_, hw⟩ | ⟨r, hr, hb, hw⟩ | ⟨r, hr, hb, hw⟩
      · cases hw.symm.trans h
      · obtain ⟨rfl, -⟩ := regAt_eq_some hr
        exact .inr (.inr (.inr (.inl ⟨off, v, rest, r, rfl, hr, hb, (next_inj.1 (hw.symm.trans h)).symm⟩)))
      · obtain ⟨rfl, -⟩ := regAt_eq_some hr
        exact .inr (.inr (.inr (.inr (.inl ⟨off, v, rest, r, rfl, hr, hb, (next_inj.1 (hw.symm.trans h)).symm⟩))))
    | busRead off width =>
      rcases busRead_cases off width { s with agenda := rest } with ⟨_, hw⟩ | ⟨r, hr, hw⟩
      · cases hw.symm.trans h
      · obtain ⟨rfl, -⟩ := regAt_eq_some hr
        exact .inr (.inr (.inr (.inr (.inr ⟨off, rest, r, rfl, hr, (next_inj.1 (hw.symm.trans h)).symm⟩))))

/-- The window offset of a register's host address is its offset (R70). -/
@[simp] theorem windowOffset_hostAddress (P : Params) (r : Reg) :
    windowOffset P (hostAddress P r) = some (offsetOf r) := by
  simp [windowOffset, hostAddress]

end Sys2Proof.Machine
end

