-- ==== Sys2Proof/Laws/Accumulator.lean ====
section
/-! SUPPORT. What the accumulator's operations do (spec 42_accumulator.md R141 to R149). -/

namespace Sys2Proof.Machine

open Sys2Proof

variable (P : Params)

@[simp] theorem process32_count (a : Acc) (b : List Byte) : (process32 P a b).count = a.count := rfl
@[simp] theorem process32_pend (a : Acc) (b : List Byte) : (process32 P a b).pend = a.pend := rfl
@[simp] theorem process32_fill (a : Acc) (b : List Byte) : (process32 P a b).fill = a.fill := rfl

/-- Word i of the block is mixed into lane i, and nothing else into it (R142). -/
theorem process32_lane (a : Acc) (b : List Byte) (i : Nat) (h : i < 4) :
    (process32 P a b).lane[i] = mix P a.lane[i] (le64 (slice b (8 * i) (8 * i + 8))) := by
  simp [process32]

theorem process32_lane_congr {a a' : Acc} (b : List Byte) (h : a.lane = a'.lane) :
    (process32 P a b).lane = (process32 P a' b).lane := by
  simp only [process32, h]

@[simp] theorem processSpans_zero (a : Acc) (s : List Byte) : processSpans P 0 a s = a := rfl

theorem processSpans_succ (n : Nat) (a : Acc) (s : List Byte) :
    processSpans P (n + 1) a s = processSpans P n (process32 P a (s.take 32)) (s.drop 32) := by
  simp only [processSpans, slice_zero, blockBytes]

@[simp] theorem processSpans_count (n : Nat) (a : Acc) (s : List Byte) : (processSpans P n a s).count = a.count := by
  induction n generalizing a s with
  | zero => rfl
  | succ n ih => rw [processSpans_succ, ih]; rfl

@[simp] theorem processSpans_pend (n : Nat) (a : Acc) (s : List Byte) : (processSpans P n a s).pend = a.pend := by
  induction n generalizing a s with
  | zero => rfl
  | succ n ih => rw [processSpans_succ, ih]; rfl

@[simp] theorem processSpans_fill (n : Nat) (a : Acc) (s : List Byte) : (processSpans P n a s).fill = a.fill := by
  induction n generalizing a s with
  | zero => rfl
  | succ n ih => rw [processSpans_succ, ih]; rfl

/-- Blocks act on the lanes alone (R142). -/
theorem processSpans_lane_congr (n : Nat) {a a' : Acc} (s : List Byte) (h : a.lane = a'.lane) :
    (processSpans P n a s).lane = (processSpans P n a' s).lane := by
  induction n generalizing a a' s with
  | zero => exact h
  | succ n ih => rw [processSpans_succ, processSpans_succ]; exact ih _ (process32_lane_congr P _ h)

/-- Spans are processed in order (R141). -/
theorem processSpans_add (n m : Nat) (a : Acc) (s : List Byte) :
    processSpans P (n + m) a s = processSpans P m (processSpans P n a s) (s.drop (32 * n)) := by
  induction n generalizing a s with
  | zero => simp
  | succ n ih =>
    rw [show n + 1 + m = (n + m) + 1 by omega, processSpans_succ, ih, processSpans_succ, List.drop_drop,
      show 32 + 32 * n = 32 * (n + 1) by omega]

/-- Bytes past the last span processed are not read (R141). -/
theorem processSpans_append (n : Nat) (a : Acc) (s t : List Byte) (h : 32 * n ≤ s.length) :
    processSpans P n a (s ++ t) = processSpans P n a s := by
  induction n generalizing a s with
  | zero => rfl
  | succ n ih =>
    rw [processSpans_succ, processSpans_succ, List.take_append_of_le_length (by omega),
      List.drop_append_of_le_length (by omega)]
    exact ih _ _ (by simp; omega)

/-- A slice inside a prefix or past a dropped one is a slice of the whole (R16). -/
theorem slice_take (s : List Byte) (n i j : Nat) (h : j ≤ n) : slice (s.take n) i j = slice s i j := by
  apply List.ext_getElem?
  intro k
  rw [slice_getElem?, slice_getElem?]
  split
  · rw [List.getElem?_take, if_pos (by omega)]
  · rfl

theorem slice_drop (s : List Byte) (n i j : Nat) : slice (s.drop n) i j = slice s (n + i) (n + j) := by
  simp only [slice, List.drop_drop, show n + j - (n + i) = j - i by omega]

/-- Lane i after n spans has word i of each of them mixed in, in order, and nothing else (R141, R142, R146). -/
theorem processSpans_lane (n : Nat) (a : Acc) (s : List Byte) (i : Nat) (h : i < 4) :
    (processSpans P n a s).lane[i] =
      (List.range n).foldl (fun l j => mix P l (le64 (slice s (32 * j + 8 * i) (32 * j + 8 * i + 8)))) a.lane[i] := by
  induction n generalizing a s with
  | zero => rfl
  | succ n ih =>
    simp only [processSpans_succ, ih, process32_lane _ _ _ _ h, slice_take _ _ _ _ (show 8 * i + 8 ≤ 32 by omega),
      slice_drop, List.range_succ_eq_map, List.foldl_cons, List.foldl_map, Nat.mul_zero, Nat.zero_add]
    congr 1
    funext l j
    rw [show 32 + (32 * j + 8 * i) = 32 * j.succ + 8 * i by omega,
      show 32 + (32 * j + 8 * i + 8) = 32 * j.succ + 8 * i + 8 by omega]

theorem livePend_length (a : Acc) (h : a.fill ≤ 32) : (livePend a).length = a.fill := by
  simp [livePend, h]

theorem livePend_empty (a : Acc) (h : a.fill = 0) : livePend a = [] := by simp [livePend, h]

/-- Writing at the fill point appends to the live bytes (R141). -/
theorem overwrite_at_fill (a : Acc) (s : List Byte) (h : a.fill + s.length ≤ 32) :
    (overwrite a.pend a.fill s).toList.take (a.fill + s.length) = livePend a ++ s := by
  rw [overwrite_toList _ _ _ h, List.take_append_of_le_length (by simp; omega), List.take_of_length_le (by simp)]
  rfl

/-- The last step of R141 leaves the tail as the live bytes. -/
theorem keepTail_spec (a : Acc) (t : List Byte) (h : a.fill = 0) (ht : t.length < 32) :
    (keepTail a t).lane = a.lane ∧ (keepTail a t).count = a.count ∧ (keepTail a t).fill = t.length ∧
      livePend (keepTail a t) = t := by
  by_cases hn : t = []
  · subst hn; simp [keepTail, h, livePend]
  · simp only [keepTail, if_neg hn, livePend, true_and]
    rw [overwrite_toList _ _ _ (by omega)]
    simp

/-- What the top-up of R141 does, in its three cases. -/
theorem topUp_cases (a : Acc) (s : List Byte) (h : a.fill < 32) :
    (a.fill = 0 ∧ topUp P a s = (a, 0)) ∨
      (0 < a.fill ∧ a.fill + s.length < 32 ∧
        topUp P a s = ({ a with pend := overwrite a.pend a.fill s, fill := a.fill + s.length }, s.length)) ∨
      (0 < a.fill ∧ 32 ≤ a.fill + s.length ∧ (topUp P a s).2 = 32 - a.fill ∧ (topUp P a s).1.fill = 0 ∧
        (topUp P a s).1.count = a.count ∧
        (topUp P a s).1.lane = (process32 P a (livePend a ++ s.take (32 - a.fill))).lane) := by
  rcases Nat.eq_zero_or_pos a.fill with h0 | h0
  · exact .inl ⟨h0, by simp [topUp, h0]⟩
  · rcases Nat.lt_or_ge (a.fill + s.length) 32 with hs | hs
    · refine .inr (.inl ⟨h0, hs, ?_⟩)
      have hm : min (32 - a.fill) s.length = s.length := by omega
      simp only [topUp, blockBytes, if_pos h0, hm, slice_zero, List.take_length,
        if_neg (show ¬ a.fill + s.length = 32 by omega)]
    · refine .inr (.inr ⟨h0, hs, ?_⟩)
      have hm : min (32 - a.fill) s.length = 32 - a.fill := by omega
      have hl : (s.take (32 - a.fill)).length = 32 - a.fill := by simp; omega
      have hp : (overwrite a.pend a.fill (s.take (32 - a.fill))).toList = livePend a ++ s.take (32 - a.fill) := by
        have := overwrite_at_fill a (s.take (32 - a.fill)) (by omega)
        rwa [hl, show a.fill + (32 - a.fill) = 32 by omega, List.take_of_length_le (by simp)] at this
      simp only [topUp, blockBytes, if_pos h0, hm, slice_zero, hp,
        if_pos (show a.fill + (32 - a.fill) = 32 by omega), process32_count, true_and]
      exact process32_lane_congr P _ rfl

/-- R141 on a stream: with q the pending bytes followed by the input, the complete blocks of q go to the
lanes, the rest stays pending, and the counter grows by the input's length. -/
theorem absorb_spec (a : Acc) (s : List Byte) (h : a.fill < 32) :
    (absorb P a s).lane = (processSpans P ((a.fill + s.length) / 32) a (livePend a ++ s)).lane ∧
      (absorb P a s).count = a.count + BitVec.ofNat 64 s.length ∧
      (absorb P a s).fill = (a.fill + s.length) % 32 ∧
      livePend (absorb P a s) = (livePend a ++ s).drop (32 * ((a.fill + s.length) / 32)) := by
  have hlp := livePend_length a (by omega)
  by_cases hs : s = []
  · subst hs
    have h1 : a.fill / 32 = 0 := by omega
    have h2 : a.fill % 32 = a.fill := by omega
    simp [absorb, h1, h2]
  · simp only [absorb, if_neg hs, blockBytes]
    rcases topUp_cases P a s h with ⟨h0, ht⟩ | ⟨h0, hlt, ht⟩ | ⟨h0, hge, ht2, htf, htc, htl⟩
    · rw [ht]
      simp only [List.drop_zero, h0, Nat.zero_add, livePend_empty a h0, List.nil_append]
      have hk := keepTail_spec (processSpans P (s.length / 32) a s) (s.drop (32 * (s.length / 32)))
        (by simpa using h0) (by simp; omega)
      refine ⟨hk.1, by rw [hk.2.1]; simp, ?_, hk.2.2.2⟩
      rw [hk.2.2.1, List.length_drop]; omega
    · rw [ht]
      have h1 : (a.fill + s.length) / 32 = 0 := by omega
      have h2 : (a.fill + s.length) % 32 = a.fill + s.length := by omega
      simp only [List.drop_length, List.length_nil, Nat.zero_div, processSpans_zero, Nat.mul_zero, List.drop_zero,
        keepTail, h1, h2, if_true, true_and]
      exact overwrite_at_fill a s (by omega)
    · have hq : (livePend a ++ s).take 32 = livePend a ++ s.take (32 - a.fill) := by
        rw [List.take_append, hlp, List.take_of_length_le (by omega)]
      have hr : (livePend a ++ s).drop 32 = s.drop (32 - a.fill) := by
        rw [List.drop_append, hlp, List.drop_of_length_le (by omega), List.nil_append]
      have hn : (a.fill + s.length) / 32 = (s.length - (32 - a.fill)) / 32 + 1 := by omega
      rw [ht2]
      simp only [List.length_drop]
      have hk := keepTail_spec (processSpans P ((s.length - (32 - a.fill)) / 32) (topUp P a s).1 (s.drop (32 - a.fill)))
        ((s.drop (32 - a.fill)).drop (32 * ((s.length - (32 - a.fill)) / 32))) (by simpa using htf)
        (by simp; omega)
      refine ⟨?_, by rw [hk.2.1]; simp [htc], ?_, ?_⟩
      · rw [hk.1, hn, processSpans_succ, hq, hr]
        exact processSpans_lane_congr P _ _ htl
      · rw [hk.2.2.1, List.length_drop, List.length_drop]; omega
      · rw [hn, show 32 * ((s.length - (32 - a.fill)) / 32 + 1) = 32 + 32 * ((s.length - (32 - a.fill)) / 32) by omega,
          ← List.drop_drop, hr]
        exact hk.2.2.2

/-- `fill < 32` after an absorption (R24, R149). -/
theorem absorb_fill_lt (a : Acc) (s : List Byte) (h : a.fill < 32) : (absorb P a s).fill < 32 := by
  rw [(absorb_spec P a s h).2.2.1]; omega

/-- Two accumulators with equal lanes, count, fill and live bytes absorb alike (R24: no rule reads the rest). -/
theorem absorb_congr {a b : Acc} (s : List Byte) (h : a.fill < 32) (hl : a.lane = b.lane) (hc : a.count = b.count)
    (hf : a.fill = b.fill) (hp : livePend a = livePend b) :
    (absorb P a s).lane = (absorb P b s).lane ∧ (absorb P a s).count = (absorb P b s).count ∧
      (absorb P a s).fill = (absorb P b s).fill ∧ livePend (absorb P a s) = livePend (absorb P b s) := by
  obtain ⟨a1, a2, a3, a4⟩ := absorb_spec P a s h
  obtain ⟨b1, b2, b3, b4⟩ := absorb_spec P b s (hf ▸ h)
  refine ⟨?_, by rw [a2, b2, hc], by rw [a3, b3, hf], by rw [a4, b4, hf, hp]⟩
  rw [a1, b1, hf, hp]
  exact processSpans_lane_congr P _ _ hl

/-- The padded copy keeps the count (R160). -/
@[simp] theorem padFinal_count (a : Acc) : (padFinal P a).count = a.count := by
  unfold padFinal; split <;> rfl

theorem padFinal_lane (a : Acc) :
    (padFinal P a).lane =
      if 0 < a.fill then (process32 P a (livePend a ++ zeros (32 - a.fill))).lane else a.lane := by
  unfold padFinal; split <;> simp [livePend, blockBytes]

/-- The exact product splits into its halves (R15, R123). -/
theorem mul128_toNat (a b : U64) : (mul128 a b).toNat = a.toNat * b.toNat := by
  have ha := a.isLt
  have hb := b.isLt
  have h : a.toNat * b.toNat < 2 ^ 64 * 2 ^ 64 := Nat.mul_lt_mul_of_lt_of_lt ha hb
  simp only [mul128, BitVec.toNat_mul, BitVec.truncate_eq_setWidth, BitVec.toNat_setWidth]
  rw [Nat.mod_eq_of_lt (by omega : a.toNat < 2 ^ 128), Nat.mod_eq_of_lt (by omega : b.toNat < 2 ^ 128)]
  omega

/-- `mix` by the halves of the exact product, as numbers (R123). -/
theorem mix_eq (a b : U64) :
    mix P a b = a ^^^ b ^^^ BitVec.ofNat 64 (a.toNat * (b ^^^ P.mixK).toNat % 2 ^ 64)
      ^^^ BitVec.ofNat 64 (a.toNat * (b ^^^ P.mixK).toNat / 2 ^ 64) := by
  have lo : (mul128 a (b ^^^ P.mixK)).extractLsb' 0 64 =
      BitVec.ofNat 64 (a.toNat * (b ^^^ P.mixK).toNat % 2 ^ 64) := by
    apply BitVec.eq_of_toNat_eq
    simp [BitVec.extractLsb'_toNat, mul128_toNat]
  have hi : (mul128 a (b ^^^ P.mixK)).extractLsb' 64 64 =
      BitVec.ofNat 64 (a.toNat * (b ^^^ P.mixK).toNat / 2 ^ 64) := by
    apply BitVec.eq_of_toNat_eq
    simp [BitVec.extractLsb'_toNat, mul128_toNat, Nat.shiftRight_eq_div_pow]
  simp only [mix, lo, hi]

end Sys2Proof.Machine
end

