-- ==== Sys2Proof/Laws/Cipher.lean ====
section
/-! SUPPORT. What the stream cipher's operations do (spec 45_stream_cipher.md R200 to R207). -/

namespace Sys2Proof.Machine

open Sys2Proof

variable (P : Params)

@[simp] theorem cipherGen_key (e : Cipher) : (cipherGen e).key = e.key := rfl
@[simp] theorem cipherGen_nonce (e : Cipher) : (cipherGen e).nonce = e.nonce := rfl
@[simp] theorem cipherGen_ctr (e : Cipher) : (cipherGen e).ctr = e.ctr + 1 := rfl
@[simp] theorem cipherGen_ks (e : Cipher) : (cipherGen e).ks = blockFn e.st := rfl
@[simp] theorem cipherGen_cur (e : Cipher) : (cipherGen e).cur = 0 := rfl
@[simp] theorem cipherGen_st (e : Cipher) : (cipherGen e).st =
    (e.st.set 12 ((e.ctr + 1).extractLsb' 0 32)).set 13 ((e.ctr + 1).extractLsb' 32 32) := rfl

/-- The quarter-round's rotation is core Lean's (R15). -/
theorem rotl32_eq_rotateLeft (x : U32) (r : Nat) (h : r < 32) : rotl32 x r = x.rotateLeft r := by
  simp only [rotl32, BitVec.rotateLeft, BitVec.rotateLeftAux, Nat.mod_eq_of_lt h]

/-- One of the quarter-round's four steps: `x[a] <- x[a] + x[b]; x[d] <- rotl32(x[d] ^ x[a], r)` (R202). -/
def quarterStep (x : Vector U32 16) (a b d : Fin 16) (r : Nat) : Vector U32 16 :=
  let x := x.set a (x[a] + x[b])
  x.set d (rotl32 (x[d] ^^^ x[a]) r)

theorem quarterRound_eq_steps (x : Vector U32 16) (a b c d : Fin 16) : quarterRound x a b c d =
    quarterStep (quarterStep (quarterStep (quarterStep x a b d 16) c d b 12) a b d 8) c d b 7 := rfl

/-- All that one step of the quarter-round does. -/
theorem quarterStep_spec (x : Vector U32 16) (a b d : Fin 16) (r : Nat) (hr : r < 32) (had : a ≠ d) :
    (quarterStep x a b d r)[a] = x[a] + x[b] ∧
      (quarterStep x a b d r)[d] = (x[d] ^^^ (x[a] + x[b])).rotateLeft r ∧
      ∀ k : Fin 16, k ≠ a → k ≠ d → (quarterStep x a b d r)[k] = x[k] := by
  have e : ∀ (x : Vector U32 16) (i j : Fin 16) (v : U32), (x.set i v)[j] = if i = j then v else x[j] := by
    intro x i j v
    simp only [Fin.getElem_fin, Vector.getElem_set, Fin.ext_iff]
  refine ⟨?_, ?_, ?_⟩
  · simp only [quarterStep, e, if_true, if_neg (Ne.symm had)]
  · simp only [quarterStep, e, if_true, if_neg had, rotl32_eq_rotateLeft _ _ hr]
  · intro k h1 h2
    simp only [quarterStep, e, if_neg (Ne.symm h1), if_neg (Ne.symm h2)]

/-- The next block does not depend on where the cursor stood (R204). -/
theorem cipherGen_cur_irrel (e : Cipher) (n : Nat) : cipherGen { e with cur := n } = cipherGen e := rfl

@[simp] theorem refill_at_end (e : Cipher) (h : e.cur = 64) : refill e = cipherGen e := by simp [refill, h]

@[simp] theorem refill_inside (e : Cipher) (h : e.cur ≠ 64) : refill e = e := by simp [refill, h]

@[simp] theorem cipherXor_nil (e : Cipher) : cipherXor e [] = (e, []) := rfl

theorem cipherXor_cons (e : Cipher) (b : Byte) (s : List Byte) :
    cipherXor e (b :: s) =
      ((cipherXor { refill e with cur := (refill e).cur + 1 } s).1,
        (b ^^^ ((refill e).ks[(refill e).cur]?).getD 0) :: (cipherXor { refill e with cur := (refill e).cur + 1 } s).2) :=
  rfl

@[simp] theorem cipherXor_length (e : Cipher) (s : List Byte) : (cipherXor e s).2.length = s.length := by
  induction s generalizing e with
  | nil => rfl
  | cons b s ih => simp [cipherXor_cons, ih]

/-- Bytes taken inside the current block: they meet the keystream bytes from the cursor on (R207). -/
theorem cipherXor_inside (e : Cipher) (s : List Byte) (h : e.cur + s.length ≤ 64) (hc : e.cur < 64 ∨ s = []) :
    cipherXor e s =
      ({ e with cur := e.cur + s.length }, List.zipWith (· ^^^ ·) s (e.ks.toList.drop e.cur)) := by
  induction s generalizing e with
  | nil => rfl
  | cons b s ih =>
    have hlt : e.cur < 64 := hc.resolve_right (by simp)
    have hd : e.ks.toList.drop e.cur = e.ks[e.cur] :: e.ks.toList.drop (e.cur + 1) := by
      rw [List.drop_eq_getElem_cons (by simpa using hlt)]; simp
    have hx : (e.ks[e.cur]?).getD 0 = e.ks[e.cur] := by simp [hlt]
    simp only [List.length_cons] at h
    have hs : e.cur + 1 < 64 ∨ s = [] := by
      cases s with
      | nil => exact .inr rfl
      | cons _ _ => simp only [List.length_cons] at h; exact .inl (by omega)
    rw [cipherXor_cons, refill_inside e (by omega), ih { e with cur := e.cur + 1 } (by simp; omega) hs, hd, hx]
    simp only [List.length_cons, List.zipWith_cons_cons, Nat.add_assoc, Nat.add_comm 1]

/-- At the end of a block the next one is generated before a byte is taken (R207). -/
theorem cipherXor_at_end (e : Cipher) (s : List Byte) (h : e.cur = 64) (hs : s ≠ []) :
    cipherXor e s = cipherXor (cipherGen e) s := by
  cases s with
  | nil => exact absurd rfl hs
  | cons b s => rw [cipherXor_cons, cipherXor_cons, refill_at_end e h, refill_inside (cipherGen e) (by simp)]

/-- Bytes that reach past the current block: the first 64 − cur meet its bytes from the cursor on, the others
those of the next block, which is generated in between (R207, R213). -/
theorem cipherXor_across (e : Cipher) (s : List Byte) (hc : e.cur ≤ 64) (h : 64 < e.cur + s.length)
    (h' : s.length ≤ 64) :
    cipherXor e s =
      ({ cipherGen e with cur := e.cur + s.length - 64 },
        List.zipWith (· ^^^ ·) (s.take (64 - e.cur)) (e.ks.toList.drop e.cur) ++
          List.zipWith (· ^^^ ·) (s.drop (64 - e.cur)) (blockFn e.st).toList) := by
  induction s generalizing e with
  | nil => simp only [List.length_nil] at h; omega
  | cons b s ih =>
    simp only [List.length_cons] at h h'
    rcases Nat.lt_or_ge e.cur 64 with hlt | hge
    · have hd : e.ks.toList.drop e.cur = e.ks[e.cur] :: e.ks.toList.drop (e.cur + 1) := by
        rw [List.drop_eq_getElem_cons (by simpa using hlt)]; simp
      have hx : (e.ks[e.cur]?).getD 0 = e.ks[e.cur] := by simp [hlt]
      have hs : 64 - e.cur = (64 - (e.cur + 1)) + 1 := by omega
      rw [cipherXor_cons, refill_inside e (by omega), ih { e with cur := e.cur + 1 } hlt (by simp only; omega) (by omega),
        cipherGen_cur_irrel, hd, hx, hs]
      simp only [List.take_succ_cons, List.drop_succ_cons, List.zipWith_cons_cons, List.cons_append,
        List.length_cons, show e.cur + 1 + s.length = e.cur + (s.length + 1) by omega]
    · have he : e.cur = 64 := by omega
      rw [cipherXor_at_end e _ he (by simp), cipherXor_inside (cipherGen e) (b :: s) (by simpa using h') (.inl (by simp))]
      simp only [cipherGen_cur, Nat.zero_add, he, cipherGen_ks, List.drop_zero, Nat.sub_self, List.take_zero,
        List.zipWith_nil_left, List.nil_append, Nat.add_sub_cancel_left]

/-- Generation keeps an instance's input state in step with its counter (R200, R204). -/
theorem cipherGen_ok {e : Cipher} (h : e.Ok P) : (cipherGen e).Ok P := by
  refine ⟨by simp, ?_⟩
  rw [cipherGen_st, h.2]
  rfl

theorem refill_ok {e : Cipher} (h : e.Ok P) : (refill e).Ok P ∧ (refill e).cur < 64 := by
  by_cases hc : e.cur = 64
  · rw [refill_at_end e hc]; exact ⟨cipherGen_ok P h, by simp⟩
  · rw [refill_inside e hc]; exact ⟨h, by have := h.1; omega⟩

/-- Consuming keystream keeps the instance's invariant (R26). -/
theorem cipherXor_ok {e : Cipher} (s : List Byte) (h : e.Ok P) : (cipherXor e s).1.Ok P := by
  induction s generalizing e with
  | nil => exact h
  | cons b s ih =>
    rw [cipherXor_cons]
    have hr := refill_ok P h
    exact ih ⟨by simpa using hr.2, hr.1.2⟩

theorem cipherNew_ok (k : Vector U32 8) (n : Vector U32 3) (ctr : U64) : (cipherNew P k n ctr).Ok P :=
  ⟨Nat.le_refl _, rfl⟩

/-- Byte j of a keystream block is byte j mod 4 of word j div 4 (R203). -/
theorem blockFn_getElem (st : Vector U32 16) (j : Nat) (h : j < 64) :
    (blockFn st)[j] = (blockWord st ⟨j / 4, by omega⟩).extractLsb' (8 * (j % 4)) 8 := by
  simp [blockFn, blockWord]

/-- Word k of a keystream block as a `u64` (R203, R43). -/
theorem le64_blockFn (st : Vector U32 16) (k : Fin 8) :
    le64 (slice (blockFn st).toList (8 * k.val) (8 * k.val + 8)) = blockWord64 st k := by
  apply u64_ext_bytes
  intro j hj
  have hjk : 8 * k.val + j < 64 := by omega
  rw [le64_byte _ _ hj, slice_getElem?, if_pos (by omega),
    List.getElem?_eq_getElem (by simpa using hjk), Option.getD_some]
  have hb : (blockFn st).toList[8 * k.val + j]'(by simpa using hjk) = (blockFn st)[8 * k.val + j] := by simp
  rw [hb, blockFn_getElem _ _ hjk]
  ext i hi
  rcases Nat.lt_or_ge j 4 with h4 | h4
  · have e1 : (8 * k.val + j) / 4 = 2 * k.val := by omega
    have e2 : (8 * k.val + j) % 4 = j := by omega
    simp only [e1, e2, blockWord64, BitVec.getElem_extractLsb', BitVec.getLsbD_append]
    rw [if_pos (by omega)]
  · have e1 : (8 * k.val + j) / 4 = 2 * k.val + 1 := by omega
    have e2 : (8 * k.val + j) % 4 = j - 4 := by omega
    simp only [e1, e2, blockWord64, BitVec.getElem_extractLsb', BitVec.getLsbD_append]
    rw [if_neg (by omega), show 8 * j + i - 32 = 8 * (j - 4) + i by omega]

end Sys2Proof.Machine
end

