-- ==== Sys2Proof/Laws/Decode.lean ====
section
/-! SUPPORT. What the decoder can do (spec 30_encoding.md R81 to R90). -/

namespace Sys2Proof

/-- Everything `formatL` can answer (R85, R86). -/
theorem formatL_cases {o : Byte} {cmd : Nat → Instr} (h : formatL o = some cmd) :
    (o = 0x02 ∧ cmd = .ins) ∨ (o = 0x32 ∧ cmd = .cxor) := by
  unfold formatL at h
  split at h
  · injection h with h; exact .inl ⟨‹_›, h.symm⟩
  · split at h
    · injection h with h; exact .inr ⟨‹_›, h.symm⟩
    · cases h

/-- A format N row is the row of its own OPC, takes no LEN, and is well formed (R85, R86). -/
theorem formatN_spec {o : Byte} {i : Instr} (h : formatN o = some i) :
    opcodeOf i = o ∧ lengthOf i = 0 ∧ i.wellFormed = true := by
  unfold formatN at h
  split at h
  all_goals first
    | (cases h; done)
    | (injection h with h; subst h; rename_i hx; exact ⟨BitVec.eq_of_toNat_eq (by rw [hx]; rfl), rfl, rfl⟩)

/-- No row of the map has both formats (R85). -/
theorem formatN_of_formatL {o : Byte} {cmd : Nat → Instr} (h : formatL o = some cmd) : formatN o = none := by
  rcases formatL_cases h with ⟨rfl, -⟩ | ⟨rfl, -⟩ <;> rfl

/-- Everything the decoder can answer: the four grounds of R90 and a command of either format, by fields. -/
theorem decodeWord_cases (w : U64) :
    (rsvField w ≠ 0 ∧ decodeWord w = .error .reservedBits) ∨
      (rsvField w = 0 ∧ formatL (opcField w) = none ∧ formatN (opcField w) = none ∧
        decodeWord w = .error .unassignedOpcode) ∨
      (rsvField w = 0 ∧ (∃ i, formatN (opcField w) = some i) ∧ lenField w ≠ 0 ∧
        decodeWord w = .error .lengthOnFormatN) ∨
      (rsvField w = 0 ∧ (∃ cmd, formatL (opcField w) = some cmd) ∧ 32 < (lenField w).toNat ∧
        decodeWord w = .error .lengthOutOfRange) ∨
      (∃ i, rsvField w = 0 ∧ formatN (opcField w) = some i ∧ lenField w = 0 ∧ decodeWord w = .ok i) ∨
      (∃ cmd, rsvField w = 0 ∧ formatL (opcField w) = some cmd ∧ (lenField w).toNat ≤ 32 ∧
        decodeWord w = .ok (cmd (lenField w).toNat)) := by
  unfold decodeWord
  by_cases hr : rsvField w = 0
  · rw [if_neg (not_not.2 hr)]
    cases hL : formatL (opcField w) with
    | some cmd =>
      by_cases hd : dataMax < (lenField w).toNat
      · exact .inr (.inr (.inr (.inl ⟨hr, ⟨cmd, rfl⟩, hd, if_pos hd⟩)))
      · exact .inr (.inr (.inr (.inr (.inr ⟨cmd, hr, rfl, Nat.not_lt.1 hd, if_neg hd⟩))))
    | none =>
      cases hN : formatN (opcField w) with
      | none => exact .inr (.inl ⟨hr, rfl, rfl, rfl⟩)
      | some i =>
        by_cases hl : lenField w = 0
        · exact .inr (.inr (.inr (.inr (.inl ⟨i, hr, rfl, hl, if_neg (not_not.2 hl)⟩))))
        · exact .inr (.inr (.inl ⟨hr, ⟨i, rfl⟩, hl, if_pos hl⟩))
  · exact .inl ⟨hr, if_pos hr⟩

/-- The fields of a word that decodes (R89). -/
theorem decode_some {w : U64} {i : Instr} (h : decode w = some i) :
    rsvField w = 0 ∧ opcodeOf i = opcField w ∧ BitVec.ofNat 6 (lengthOf i) = lenField w ∧ i.wellFormed = true := by
  unfold decode at h
  rcases decodeWord_cases w with ⟨_, e⟩ | ⟨_, _, _, e⟩ | ⟨_, _, _, e⟩ | ⟨_, _, _, e⟩ | ⟨j, hr, hN, hl, e⟩ |
    ⟨cmd, hr, hL, hl, e⟩ <;> rw [e] at h
  · cases h
  · cases h
  · cases h
  · cases h
  · injection h with h; subst h
    obtain ⟨h1, h2, h3⟩ := formatN_spec hN
    exact ⟨hr, h1, by rw [h2, hl]; rfl, h3⟩
  · injection h with h; subst h
    rcases formatL_cases hL with ⟨ho, rfl⟩ | ⟨ho, rfl⟩ <;>
      exact ⟨hr, ho.symm, by simp [lengthOf], by simpa [Instr.wellFormed] using hl⟩

/-- A performed command has an encoding: a body meets no LEN above 32 (R83, R89). -/
theorem decode_wellFormed {w : U64} {i : Instr} (h : decode w = some i) : i.wellFormed = true :=
  (decode_some h).2.2.2

end Sys2Proof
end

