-- ==== Sys2Proof/Laws/PerInstr.lean ====
section
/-! SUPPORT. Statements for all instructions, one lemma per constructor (LAWS.json). -/

namespace Sys2Proof.Laws

/-- The encoding of a command carries its OPC and its LEN in their fields, and RSV = 0 (R81 to R86). -/
def EncodedFields.Statement (i : Instr) : Prop :=
  i.wellFormed = true →
    opcField (encode i) = opcodeOf i ∧ (lenField (encode i)).toNat = lengthOf i ∧ rsvField (encode i) = 0

theorem EncodedFields.nop : EncodedFields.Statement .nop := fun _ => ⟨rfl, rfl, rfl⟩

theorem EncodedFields.init : EncodedFields.Statement .init := fun _ => ⟨rfl, rfl, rfl⟩

theorem EncodedFields.ins (len : Nat) : EncodedFields.Statement (.ins len) := by
  intro h
  have h : len ≤ 32 := by simpa [Instr.wellFormed] using h
  interval_cases len <;> exact ⟨rfl, rfl, rfl⟩

theorem EncodedFields.mix : EncodedFields.Statement .mix := fun _ => ⟨rfl, rfl, rfl⟩

theorem EncodedFields.h64 : EncodedFields.Statement .h64 := fun _ => ⟨rfl, rfl, rfl⟩

theorem EncodedFields.h128 : EncodedFields.Statement .h128 := fun _ => ⟨rfl, rfl, rfl⟩

theorem EncodedFields.h256 : EncodedFields.Statement .h256 := fun _ => ⟨rfl, rfl, rfl⟩

theorem EncodedFields.sec128 : EncodedFields.Statement .sec128 := fun _ => ⟨rfl, rfl, rfl⟩

theorem EncodedFields.sec256 : EncodedFields.Statement .sec256 := fun _ => ⟨rfl, rfl, rfl⟩

theorem EncodedFields.sec512 : EncodedFields.Statement .sec512 := fun _ => ⟨rfl, rfl, rfl⟩

theorem EncodedFields.cinit : EncodedFields.Statement .cinit := fun _ => ⟨rfl, rfl, rfl⟩

theorem EncodedFields.cgen : EncodedFields.Statement .cgen := fun _ => ⟨rfl, rfl, rfl⟩

theorem EncodedFields.cxor (len : Nat) : EncodedFields.Statement (.cxor len) := by
  intro h
  have h : len ≤ 32 := by simpa [Instr.wellFormed] using h
  interval_cases len <;> exact ⟨rfl, rfl, rfl⟩

end Sys2Proof.Laws
end

