-- ==== Sys2Proof/Tests/Slice0.lean ====
section
/-! SUPPORT. Tests. Expected values are those of spec 95_test_vectors.md (tables 2.1 to 2.8, under the
reference configuration REF) and of the examples in the rules; each theorem names its source. The last
part shows, for each obligation with hypotheses, a state and operands that meet them. -/

namespace Sys2Proof.Tests

open Sys2Proof Sys2Proof.Machine

/-! WellFormed: an ill-formed term for each check (R83). -/

theorem test_wellFormed_ins_limit : Instr.wellFormed (.ins 32) = true ∧ Instr.wellFormed (.ins 33) = false := by decide

theorem test_wellFormed_cxor_limit : Instr.wellFormed (.cxor 32) = true ∧ Instr.wellFormed (.cxor 33) = false := by decide

/-! Decode: one word for each constructor, written from the fields of R81, RSV then LEN then OPC, and the
opcode map of R86. -/

theorem test_decode_nop : decode ((0 : BitVec 50) ++ (0b000000 : BitVec 6) ++ (0b00000000 : BitVec 8)) = some .nop := by decide
theorem test_decode_init : decode ((0 : BitVec 50) ++ (0b000000 : BitVec 6) ++ (0b00000001 : BitVec 8)) = some .init := by decide
theorem test_decode_ins : decode ((0 : BitVec 50) ++ (0b010110 : BitVec 6) ++ (0b00000010 : BitVec 8)) = some (.ins 22) := by decide
theorem test_decode_mix : decode ((0 : BitVec 50) ++ (0b000000 : BitVec 6) ++ (0b00000011 : BitVec 8)) = some .mix := by decide
theorem test_decode_h64 : decode ((0 : BitVec 50) ++ (0b000000 : BitVec 6) ++ (0b00010000 : BitVec 8)) = some .h64 := by decide
theorem test_decode_h128 : decode ((0 : BitVec 50) ++ (0b000000 : BitVec 6) ++ (0b00010001 : BitVec 8)) = some .h128 := by decide
theorem test_decode_h256 : decode ((0 : BitVec 50) ++ (0b000000 : BitVec 6) ++ (0b00010010 : BitVec 8)) = some .h256 := by decide
theorem test_decode_sec128 : decode ((0 : BitVec 50) ++ (0b000000 : BitVec 6) ++ (0b00100000 : BitVec 8)) = some .sec128 := by decide
theorem test_decode_sec256 : decode ((0 : BitVec 50) ++ (0b000000 : BitVec 6) ++ (0b00100001 : BitVec 8)) = some .sec256 := by decide
theorem test_decode_sec512 : decode ((0 : BitVec 50) ++ (0b000000 : BitVec 6) ++ (0b00100010 : BitVec 8)) = some .sec512 := by decide
theorem test_decode_cinit : decode ((0 : BitVec 50) ++ (0b000000 : BitVec 6) ++ (0b00110000 : BitVec 8)) = some .cinit := by decide
theorem test_decode_cgen : decode ((0 : BitVec 50) ++ (0b000000 : BitVec 6) ++ (0b00110001 : BitVec 8)) = some .cgen := by decide
theorem test_decode_cxor : decode ((0 : BitVec 50) ++ (0b100000 : BitVec 6) ++ (0b00110010 : BitVec 8)) = some (.cxor 32) := by decide

/-- Table 2.1: the word of each ground of R90, rejected by name; RSV is tested first, so it names the last. -/
theorem test_illegal_by_name :
    decodeWord 0x0000000000000004 = .error .unassignedOpcode ∧
      decodeWord 0x0000000000000023 = .error .unassignedOpcode ∧
      decodeWord 0x0000000000000103 = .error .lengthOnFormatN ∧
      decodeWord 0x0000000000002102 = .error .lengthOutOfRange ∧
      decodeWord 0x0000000000003F02 = .error .lengthOutOfRange ∧
      decodeWord 0x0000000000002132 = .error .lengthOutOfRange ∧
      decodeWord 0x0000000000004000 = .error .reservedBits ∧
      decodeWord 0x8000000000000010 = .error .reservedBits ∧
      decodeWord 0xFFFFFFFFFFFFFFFF = .error .reservedBits :=
  ⟨rfl, rfl, rfl, rfl, rfl, rfl, rfl, rfl, rfl⟩

/-- R94: the assembler writes the word of a mnemonic and refuses what has none. -/
theorem test_assemble :
    assemble "ins" (some 22) = some 0x1602 ∧ assemble "sec512" none = some 0x22 ∧
      assemble "ins" (some 33) = none ∧ assemble "ins" none = none ∧ assemble "mix" (some 0) = none ∧
      assemble "sec64" none = none := by decide

/-- The host's table word: 64 bits, and a longer number is no word (R80). -/
theorem test_decodeTableWord :
    decodeTableWord 64 0x532 = some (.cxor 5) ∧ decodeTableWord 16 0x532 = some (.cxor 5) ∧
      decodeTableWord 64 (2 ^ 64 + 1) = some .init ∧ decodeTableWord 72 (2 ^ 64 + 1) = none := by decide

/-! One step of each command, under REF. -/

/-- A valid accumulator with seed 0's lanes, as INIT leaves it under REF (table 2.2, row 1). -/
def ready : State :=
  { State.reset with
    accValid := true
    acc := { Acc.reset with
      lane := #v[0xE220A8397B1DCDAF, 0x6E789E6AA1B965F4, 0x06C45D188009454F, 0xF88BB8A8724C81EC] } }

/-- The key of bytes 00..1f (95_test_vectors.md, notation). -/
def rfcKey : Vector U64 4 := #v[0x0706050403020100, 0x0F0E0D0C0B0A0908, 0x1716151413121110, 0x1F1E1D1C1B1A1918]

/-- CIPH after the CINIT of table 2.7. -/
def keyed : State :=
  performCinit Params.ref { State.reset with key := rfcKey, nonce0 := 0x0000004A00000009 }

/-- Table 2.8, row 1: NOP from reset, and NOP after an error. -/
theorem test_nop : performNop { State.reset with err := .noAcc } = State.reset := by decide +kernel

/-- Table 2.3: the MIX example, and its operands swapped. -/
theorem test_mix :
    (performMix Params.ref { State.reset with data := #v[0x0123456789ABCDEF, 0xFEDCBA9876543210, 0, 0] }).res[0]
      = 0xEF7A65F8DB5D5D99 := by decide +kernel
theorem test_mix_swapped :
    (performMix Params.ref { State.reset with data := #v[0xFEDCBA9876543210, 0x0123456789ABCDEF, 0, 0] }).res[0]
      = 0x2FDE2ABFEDA4D278 := by decide +kernel

/-- Table 2.2, row 1, from a faulted accumulator (table 2.8, last row but one): lanes and STATUS. -/
theorem test_init :
    let t := performInit Params.ref { State.reset with seed := 0, accValid := true, accOvf := true, err := .faulted }
    t.acc = ready.acc ∧ statusWord t = 0x002 := by decide +kernel

/-- Program P4: `ins 30` from fill 3 completes one block and leaves byte 0x20 pending. -/
theorem test_ins_crosses_a_block :
    let s := { ready with
      acc := { ready.acc with count := 3, fill := 3, pend := (Vector.replicate 32 0).set 1 1 |>.set 2 2 }
      data := #v[0x0A09080706050403, 0x1211100F0E0D0C0B, 0x1A19181716151413, 0x0000201F1E1D1C1B] }
    let t := performIns Params.ref 30 s
    t.acc.lane = #v[0xD5ADBA7DFEF9856F, 0x1E0AC80078FFE754, 0x1BF1EC0E3F8DA5D2, 0xF7416A8F14760559] ∧
      t.acc.count = 33 ∧ t.acc.fill = 1 ∧ t.acc.pend[0] = 0x20 := by decide +kernel

/-- Section 2.4, the overflow boundary: 2^64 − 32 and one byte more. -/
theorem test_ins_overflow :
    let s := { ready with acc := { ready.acc with count := 0xFFFFFFFFFFFFFFE0 } }
    performIns Params.ref 32 s = { s with accOvf := true, err := .overflow } ∧
      (performIns Params.ref 31 s).acc.count = 0xFFFFFFFFFFFFFFFF := by decide +kernel

/-- Table 2.5, row 1. -/
theorem test_h64 : (performH64 Params.ref ready).res = #v[0x53B4E9FCEF6DC5E6, 0, 0, 0, 0, 0, 0, 0] := by decide +kernel

/-- Table 2.5, row 1. -/
theorem test_h128 :
    (performH128 Params.ref ready).res = #v[0xE5314932A90E78B6, 0xB685A0CE4663BD50, 0, 0, 0, 0, 0, 0] := by decide +kernel

/-- Table 2.5, row 3: one byte 0x00, which pads to a block and keeps count 1. -/
theorem test_h256_padded :
    (performH256 Params.ref { ready with acc := { ready.acc with count := 1, fill := 1 } }).res =
      #v[0x531B200FF5F3861E, 0x76420BC6D02E9669, 0xADBA16F1F63F6BE9, 0x9084C06D5B11D41E, 0, 0, 0, 0] := by
  decide +kernel

/-- Table 2.6, row 6. -/
theorem test_sec128 :
    (performSec128 Params.ref ready).res = #v[0x9818F96CC5FACA30, 0x6370B319DD2EDF6C, 0, 0, 0, 0, 0, 0] := by
  decide +kernel

/-- Table 2.6, row 7, whose first four words SEC256 writes (R186). -/
theorem test_sec256 :
    (performSec256 Params.ref ready).res =
      #v[0x9818F96CC5FACA30, 0x6370B319DD2EDF6C, 0x6FA1BE5020204A84, 0x15F1569A4C1F47FE, 0, 0, 0, 0] := by
  decide +kernel

/-- Table 2.6, row 7. -/
theorem test_sec512 :
    (performSec512 Params.ref ready).res =
      #v[0x9818F96CC5FACA30, 0x6370B319DD2EDF6C, 0x6FA1BE5020204A84, 0x15F1569A4C1F47FE, 0x434EE69C7621B729,
        0xD539D874B03371D5, 0x1487CBE60F3DE7A5, 0xEA77FAFBF4A296DF] := by
  decide +kernel

/-- Section 2.7: CIPH.st, CCTR and CCUR after CINIT. -/
theorem test_cinit :
    keyed.ciph.st = #v[0x61707865, 0x3320646E, 0x79622D32, 0x6B206574, 0x03020100, 0x07060504, 0x0B0A0908, 0x0F0E0D0C,
      0x13121110, 0x17161514, 0x1B1A1918, 0x1F1E1D1C, 0x00000001, 0x00000000, 0x00000009, 0x0000004A] ∧
      keyed.ciph.ctr = 1 ∧ keyed.ciph.cur = 64 ∧ statusWord keyed = 0x004 := by decide +kernel

/-- Table 2.7, row 1. -/
theorem test_cgen :
    (performCgen keyed).res = #v[0x5CD92CDC3C1DFF2B, 0x900246D44C071035, 0xB357B03DA91178AD, 0x6FE781242A8FCF35,
      0x28768E9247637D82, 0x35FCA06FAF5A986A, 0xD468C08435004D13, 0x7A38BE09148E2B43] ∧
      (performCgen keyed).ciph.ctr = 2 ∧ (performCgen keyed).ciph.cur = 0 := by decide +kernel

/-- Table 2.7, `cxor 8` from CCUR = 60: four bytes of block 1 and four of block 2. -/
theorem test_cxor_across_blocks :
    let t := performCxor 8 { keyed with ciph := { cipherGen keyed.ciph with cur := 60 } }
    t.res = #v[0xF4DC8D787A38BE09, 0, 0, 0, 0, 0, 0, 0] ∧ t.ciph.ctr = 3 ∧ t.ciph.cur = 4 := by decide +kernel

/-- Program P5: CXOR of S's words under the key 00..1f and a zero nonce. -/
theorem test_cxor_data :
    let s := performCinit Params.ref { State.reset with
      key := rfcKey, data := #v[0x2073692073696854, 0x7475706E6920796D, 0x00002E6174616420, 0] }
    (performCxor 22 s).res = #v[0xF1D58F8D422BD04C, 0x533B33C1087C187E, 0x000083808192D5D8, 0, 0, 0, 0, 0] ∧
      (performCxor 22 s).ciph.cur = 22 := by decide +kernel

/-- Section 2.7: the counter wraps (R204). -/
theorem test_counter_wraps :
    let e := cipherGen (cipherNew Params.ref (keyWords keyed) (nonceWords keyed) 0xFFFFFFFFFFFFFFFF)
    e.ctr = 0 ∧ e.st[12] = 0 ∧ e.st[13] = 0 ∧ e.ks[0] = 0x78 ∧ e.ks[1] = 0xd8 := by decide +kernel

/-! The bus (table 2.8, second part) and a fetched word. -/

/-- Rows 1 to 3: the issue, and two writes that are lost. -/
theorem test_bus_busy :
    let s := { ready with busy := true, cmdq := 0x10 }
    step { ready with agenda := [.busWrite 0x10 8 0x10] } = .next s ∧ statusWord s = 0x003 ∧
      step { s with agenda := [.busWrite 0x20 8 0x55] } = .next { s with wign := true } ∧
      statusWord { s with wign := true } = 0x013 := ⟨rfl, rfl, rfl, rfl⟩

/-- Rows 6 and 7: a write of STATUS with bit 4 clear keeps WIGN, with bit 4 set clears it. -/
theorem test_bus_wign :
    let s := { ready with wign := true }
    step { s with agenda := [.busWrite 0x08 8 0x0] } = .next s ∧
      step { s with agenda := [.busWrite 0x08 8 0x10] } = .next ready := ⟨rfl, rfl⟩

/-- Row 8, and NONCE1's missing upper half (R41). -/
theorem test_bus_read :
    step { ready with agenda := [.busRead 0x00 8] } = .next { ready with replies := [0x4A53484153480007] } ∧
      step { ready with agenda := [.busWrite 0x68 8 0xDEADBEEF00000001] } = .next { ready with nonce1 := 1 } :=
  ⟨rfl, rfl⟩

/-- R63: a narrow, a misaligned and an outside access are bus errors. -/
theorem test_bus_error :
    step { ready with agenda := [.busWrite 0x10 4 0] } = .fault (.busError 0x10 4) ∧
      step { ready with agenda := [.busRead 0x0C 8] } = .fault (.busError 0x0C 8) ∧
      step { ready with agenda := [.busRead 0x100 8] } = .fault (.busError 0x100 8) := ⟨rfl, rfl, rfl⟩

/-- Table 2.8: H64 and CGEN from reset, as the first command the machine performs. -/
theorem test_first_command :
    step (State.reset.withFetchWord 64 0x10) = .next { State.reset with cmdq := 0x10, err := .noAcc } ∧
      step (State.reset.withFetchWord 64 0x31) = .next { State.reset with cmdq := 0x31, err := .noCipher } ∧
      step (State.reset.withFetchWord 64 0x23) = .next { State.reset with cmdq := 0x23, err := .illegal } :=
  ⟨rfl, rfl, rfl⟩

/-! Witnesses: the hypotheses of each obligation that has any, met together. -/

/-- A state with a valid accumulator and a valid cipher instance, in the machine's configuration. -/
def both : State :=
  { ready with ciphValid := true, ciph := cipherNew Config.params (keyWords State.reset) (nonceWords State.reset) 1 }

/-- A faulted accumulator beside a valid cipher instance. -/
def faulted : State := { both with accOvf := true }

/-- A command outstanding, the core next. -/
def outstanding (w : U64) : State := { both with busy := true, cmdq := w, agenda := [.core] }

theorem test_witness_EncodedCommandDecodes :
    Instr.wellFormed (.ins 0) = true ∧ Instr.wellFormed (.ins 32) = true ∧ Instr.wellFormed (.cxor 32) = true ∧
      Instr.wellFormed .sec512 = true := by decide

theorem test_witness_DecodedWordIsItsEncoding : decode 0x2002 = some (.ins 32) ∧ decode 0x22 = some .sec512 := by decide

theorem test_witness_StepPerformsTheIssuedCommand :
    ((outstanding 0x532).busy = true ∧ decode (outstanding 0x532).cmdq = some (.cxor 5) ∧
      (outstanding 0x532).agenda = .core :: []) ∧
      ({ outstanding 0x532 with agenda := [] }.busy = true ∧
        decode { outstanding 0x532 with agenda := [] }.cmdq = some (.cxor 5)) := by decide

theorem test_witness_IllegalWordSetsErrAlone :
    (outstanding 0x2102).busy = true ∧ decode (outstanding 0x2102).cmdq = none ∧
      (outstanding 0x2102).agenda = .core :: [] := by decide

theorem test_witness_EveryLegalStepCompletes :
    { ready with agenda := [.busWrite 0xF8 8 0, .core, .reset, .busRead 0 8] }.legalAgenda = true := by decide

/-- A state with both objects valid meets the invariant, and steps: an `ins 32`, a CGEN and a CXOR. -/
theorem test_witness_StepKeepsTheInvariant :
    (outstanding 0x2002).Inv Config.params ∧ (∃ t, step (outstanding 0x2002) = .next t) ∧
      (outstanding 0x31).Inv Config.params ∧ (∃ t, step (outstanding 0x31) = .next t) := by
  have h : ∀ w, (outstanding w).Inv Config.params := fun _ =>
    ⟨fun _ => rfl, fun h => by simp [outstanding, both, ready] at h, fun _ => ⟨Nat.le_refl _, rfl⟩,
      fun h => by simp [outstanding, both] at h⟩
  exact ⟨h _, ⟨_, rfl⟩, h _, ⟨_, rfl⟩⟩

theorem test_witness_OutstandingCommandIsPerformed :
    { outstanding 0x10 with agenda := [.busRead 8 8, .busWrite 0x10 8 0, .busRead 8 8] }.legalAgenda = true ∧
      { outstanding 0x10 with agenda := [.busRead 8 8, .busWrite 0x10 8 0, .busRead 8 8] }.busy = true := by decide

theorem test_witness_BusyChangesOnlyAtIssueAndPerformance :
    ((∃ t, step { ready with agenda := [.busWrite 0x10 8 0] } = .next t) ∧ ready.busy = false) ∧
      ((∃ t, step (outstanding 0) = .next t) ∧ (outstanding 0).busy = true) ∧
      ((∃ t, step { outstanding 0 with agenda := [.reset] } = .next t) ∧ (outstanding 0).busy = true) ∧
      ((∃ t, step { outstanding 0 with agenda := [] } = .next t) ∧ (outstanding 0).busy = true) :=
  ⟨⟨⟨_, rfl⟩, rfl⟩, ⟨⟨_, rfl⟩, rfl⟩, ⟨⟨_, rfl⟩, rfl⟩, ⟨_, rfl⟩, rfl⟩

theorem test_witness_WignIsSetByLostWritesAlone :
    ((∃ t, step { outstanding 0 with agenda := [.busWrite 0xF8 8 0] } = .next t) ∧ (outstanding 0).busy = true ∧
      (outstanding 0).wign = false) ∧
      ((∃ t, step { ready with wign := true, agenda := [.busWrite 0x08 8 0x10] } = .next t) ∧
        ready.busy = false ∧ (0x10 : U64).getLsbD 4 = true) := ⟨⟨⟨_, rfl⟩, rfl, rfl⟩, ⟨_, rfl⟩, rfl, rfl⟩

theorem test_witness_LateWritesDoNotReachTheCommand :
    (outstanding 0x531).busy = true ∧
      (∀ e ∈ ([.busWrite 0x00 8 1, .busWrite 0xF8 8 2] : List Event),
        ∃ off v, e = .busWrite off 8 v ∧ off % 8 = 0 ∧ off ≤ 0xF8) ∧
      ∃ t, step { outstanding 0x531 with agenda := [.core] } = .next t := by
  refine ⟨rfl, ?_, _, rfl⟩
  intro e he
  simp only [List.mem_cons, List.not_mem_nil, or_false] at he
  rcases he with rfl | rfl
  · exact ⟨0x00, 1, rfl, rfl, by decide⟩
  · exact ⟨0xF8, 2, rfl, rfl, by decide⟩

theorem test_witness_FirstApplicableErrorIsReported :
    (outstanding 0x31).busy = true ∧ (outstanding 0x31).agenda = .core :: [] := ⟨rfl, rfl⟩

/-- A refused command, and an overflowing one. -/
theorem test_witness_FailedCommandChangesNothingElse :
    (exec .h64 State.reset = .next { State.reset with err := .noAcc } ∧
      { State.reset with err := .noAcc }.err ≠ .ok) ∧
      ∃ t, exec (.ins 32) { ready with acc := { ready.acc with count := 0xFFFFFFFFFFFFFFE0 } } = .next t ∧
        t.err = .overflow := ⟨⟨rfl, by decide⟩, _, rfl, by decide +kernel⟩

theorem test_witness_CommandWritesOnlyItsOwnResults :
    (∃ t, exec .h128 both = .next t) ∧ resultWords .h128 ≤ (2 : Fin 8).val ∧ Instr.h128 ≠ .init ∧
      (∀ len, Instr.h128 ≠ .ins len) ∧ Instr.h128 ≠ .cinit ∧ streamCommand .h128 = false :=
  ⟨⟨_, rfl⟩, by decide, by decide, fun _ h => Instr.noConfusion h, by decide, rfl⟩

/-- The clauses in order; the count of the first is the least that overflows. -/
theorem test_witness_OverflowIsStickyUntilInit :
    (ready.accValid = true ∧ ready.accOvf = false ∧
      2 ^ 64 - 1 < { ready.acc with count := 0xFFFFFFFFFFFFFFE0 }.count.toNat + 32) ∧
      (Instr.wellFormed (.ins 0) = true ∧ accCommand (.ins 0) = true ∧ faulted.accValid = true ∧ faulted.accOvf = true) ∧
      (∃ t, step { faulted with busy := true, cmdq := 0x01 } = .next t) ∧
      (∃ t, step (outstanding 0x2002) = .next t) ∧
      (Instr.wellFormed .cgen = true ∧ faulted.ciphValid = true ∧ streamCommand .cgen = true) :=
  ⟨by decide, by decide, ⟨_, rfl⟩, ⟨_, rfl⟩, by decide⟩

theorem test_witness_ValidBitsAreSetByConstructionAlone :
    ((∃ t, step { State.reset with busy := true, cmdq := 0x01 } = .next t) ∧ State.reset.accValid = false ∧
      State.reset.ciphValid = false) ∧
      ((∃ t, step { both with agenda := [.reset] } = .next t) ∧ both.accValid = true ∧ both.ciphValid = true) :=
  ⟨⟨⟨_, rfl⟩, rfl, rfl⟩, ⟨_, rfl⟩, rfl, rfl⟩

theorem test_witness_CommandsBeforeConstructionAreRefused :
    (Instr.wellFormed .h64 = true ∧ accCommand .h64 = true ∧ State.reset.accValid = false) ∧
      (Instr.wellFormed (.cxor 0) = true ∧ streamCommand (.cxor 0) = true ∧ State.reset.ciphValid = false) := by decide

/-- A full command on the fullest buffer, up to the counter's maximum. -/
theorem test_witness_InsAbsorbsDataBytes :
    let s := { ready with acc := { ready.acc with count := 0xFFFFFFFFFFFFFFDF, fill := 31 } }
    s.accValid = true ∧ s.accOvf = false ∧ s.acc.fill < 32 ∧ s.acc.count.toNat + 32 ≤ 2 ^ 64 - 1 := by decide

theorem test_witness_AbsorbIsChunkInvariant : { Acc.reset with fill := 31 }.fill < 32 := by decide

theorem test_witness_AccumulatorIsAFunctionOfTheStream : (dbytes State.reset).length < 2 ^ 64 := by decide

theorem test_witness_InsSequenceAbsorbsItsStream :
    let cs : List (Vector U64 4 × Nat) := [(rfcKey, 32), (rfcKey, 0), (rfcKey, 7)]
    (∀ c ∈ cs, c.2 ≤ 32) ∧ ready.accValid = true ∧ ready.accOvf = false ∧ ready.acc.fill < 32 ∧
      ready.acc.count.toNat + (insStream cs).length ≤ 2 ^ 64 - 1 := by
  refine ⟨?_, by decide +kernel⟩
  intro c hc
  simp only [List.mem_cons, List.not_mem_nil, or_false] at hc
  rcases hc with rfl | rfl | rfl <;> decide

theorem test_witness_LanesAreIndependent :
    let b := { ready.acc with lane := ready.acc.lane.set 1 0 }
    ready.acc.pend = b.pend ∧ ready.acc.fill = b.fill ∧ ready.acc.lane[(3 : Fin 4)] = b.lane[(3 : Fin 4)] := by decide

/-- DATA differs from byte 1 on. -/
theorem test_witness_DataBytesPastLenAreNotRead :
    (dataBytes #v[0xFF00, 1, 2, 3]).take 1 = (dbytes both).take 1 ∧ (∃ t, exec (.ins 1) both = .next t) ∧
      (∃ t, exec (.cxor 1) both = .next t) := ⟨by decide, ⟨_, rfl⟩, ⟨_, rfl⟩⟩

theorem test_witness_PadAbsorbsZerosAndKeepsTheCount :
    { Acc.reset with fill := 31 }.fill < 32 ∧ Acc.reset.fill < 32 := by decide

/-- For the five statements about the finalizers. -/
theorem test_witness_H256FollowsTheFinalizerRule : both.accValid = true ∧ both.accOvf = false := ⟨rfl, rfl⟩
theorem test_witness_FinalizerWidthsAreConsistent : both.accValid = true ∧ both.accOvf = false := ⟨rfl, rfl⟩
theorem test_witness_SecureCommandsNestOneEncryptedBlock : both.accValid = true ∧ both.accOvf = false := ⟨rfl, rfl⟩

theorem test_witness_ZeroPaddingIsToldApartByTheCount : (1 ≤ 1 ∧ 1 ≤ 31) ∧ (1 ≤ 31 ∧ 31 ≤ 31) := by decide

/-- SEC512, then an INS and a CGEN, from a state where all three succeed. -/
theorem test_witness_FinalizationIsAQuery :
    finalizer .sec512 = true ∧ ∃ t, exec .sec512 both = .next t ∧ (∃ u, exec (.ins 5) both = .next u) ∧
      (∃ v, exec (.ins 5) t = .next v) ∧ (∃ u, exec .cgen both = .next u ∧ u.err = .ok) ∧
      (∃ v, exec .cgen t = .next v) ∧ (7 : Fin 8).val < resultWords .cgen :=
  ⟨rfl, _, rfl, ⟨_, rfl⟩, ⟨_, rfl⟩, ⟨_, rfl, rfl⟩, ⟨_, rfl⟩, by decide⟩

theorem test_witness_SecureCommandsIgnoreTheCipherInstance : ∃ t, exec .sec256 both = .next t := ⟨_, rfl⟩

theorem test_witness_HighNonceWordAffectsNoOutput :
    (∃ t, exec .sec128 both = .next t) ∧ (∃ t, exec .cinit both = .next t) ∧
      (streamCommand .cgen = true ∧ ∃ t, exec .cgen both = .next t) := ⟨⟨_, rfl⟩, ⟨_, rfl⟩, rfl, _, rfl⟩

theorem test_witness_CgenGeneratesAndShowsABlock : both.ciphValid = true := rfl

/-- The cursor at its ends: 32 bytes that end the block, none at its end, and one that needs the next. -/
theorem test_witness_CxorConsumesKeystream :
    ({ both with ciph := { both.ciph with cur := 32 } }.ciphValid = true ∧
      { both.ciph with cur := 32 }.cur ≤ 64 ∧ { both.ciph with cur := 32 }.cur + 32 ≤ 64 ∧
      { both.ciph with cur := 32 }.cur < 64) ∧
      (both.ciphValid = true ∧ both.ciph.cur ≤ 64 ∧ both.ciph.cur + 0 ≤ 64) ∧ 64 < both.ciph.cur + 1 ∧
      4 ≤ (4 : Fin 8).val :=
  ⟨⟨rfl, by decide, by decide, by decide⟩, ⟨rfl, Nat.le_refl 64, Nat.le_refl 64⟩, Nat.lt_succ_self 64, by decide⟩

theorem test_witness_BusWriteEffects : both.busy = false := rfl

theorem test_witness_BusReadValues :
    { ready with acc := { ready.acc with fill := 31 } }.acc.fill < 32 ∧ State.reset.ciph.cur ≤ 64 := by decide

theorem test_witness_StatusBitsAreItsFields : (5 ≤ 5 ∧ 5 ≤ 7) ∧ (5 ≤ 12 ∧ 12 ≤ 12) := by decide

theorem test_witness_WriteWhileBusyIsIgnored : (outstanding 0).busy = true ∧ 0xF8 % 8 = 0 ∧ 0xF8 ≤ 0xF8 := ⟨rfl, by decide⟩

/-- A diagonal group, a word outside it, and the last word of the block. -/
theorem test_witness_KeystreamBlockFollowsTheRule :
    ([0, 5, 10, 15] : List (Fin 16)).Nodup ∧ (1 : Fin 16) ∉ ([0, 5, 10, 15] : List (Fin 16)) ∧
      (15 : Fin 16).val = 2 * (7 : Fin 8).val + 1 ∧ (14 : Fin 16).val = 2 * (7 : Fin 8).val := by decide

end Sys2Proof.Tests
end

