-- ==== Sys2Proof/Proofs/KeystreamBlock.lean ====
section
/-! PROOFS. The keystream block follows the rule (spec 45_stream_cipher.md R202, R203). -/

namespace Sys2Proof.Machine

open Sys2Proof

/-- Half a quarter-round: two of its four steps, in which every word of the group is written once (R202). -/
def halfRound (x : Vector U32 16) (a b c d : Fin 16) (r q : Nat) : Vector U32 16 :=
  quarterStep (quarterStep x a b d r) c d b q

theorem quarterRound_eq_halves (x : Vector U32 16) (a b c d : Fin 16) :
    quarterRound x a b c d = halfRound (halfRound x a b c d 16 12) a b c d 8 7 :=
  quarterRound_eq_steps x a b c d

/-- All that half a quarter-round on four different words does, each new word given by those written before it. -/
theorem halfRound_spec (x : Vector U32 16) {a b c d : Fin 16} {r q : Nat} (h : [a, b, c, d].Nodup)
    (hr : r < 32) (hq : q < 32) :
    (halfRound x a b c d r q)[a] = x[a] + x[b] ∧
      (halfRound x a b c d r q)[d] = (x[d] ^^^ (halfRound x a b c d r q)[a]).rotateLeft r ∧
      (halfRound x a b c d r q)[c] = x[c] + (halfRound x a b c d r q)[d] ∧
      (halfRound x a b c d r q)[b] = (x[b] ^^^ (halfRound x a b c d r q)[c]).rotateLeft q ∧
      ∀ k : Fin 16, k ∉ [a, b, c, d] → (halfRound x a b c d r q)[k] = x[k] := by
  simp only [List.nodup_cons, List.mem_cons, List.not_mem_nil, or_false, not_or] at h
  obtain ⟨⟨hab, hac, had⟩, ⟨hbc, hbd⟩, hcd, -⟩ := h
  obtain ⟨firstA, firstD, firstKeeps⟩ := quarterStep_spec x a b d r hr had
  obtain ⟨secondC, secondB, secondKeeps⟩ :=
    quarterStep_spec (quarterStep x a b d r) c d b q hq (Ne.symm hbc)
  have newA : (halfRound x a b c d r q)[a] = x[a] + x[b] := (secondKeeps a hac hab).trans firstA
  have newD : (halfRound x a b c d r q)[d] = (x[d] ^^^ (x[a] + x[b])).rotateLeft r :=
    (secondKeeps d (Ne.symm hcd) (Ne.symm hbd)).trans firstD
  have newC : (halfRound x a b c d r q)[c] = x[c] + (halfRound x a b c d r q)[d] := by
    rw [newD, ← firstD, ← firstKeeps c (Ne.symm hac) hcd]
    exact secondC
  have newB : (halfRound x a b c d r q)[b] = (x[b] ^^^ (halfRound x a b c d r q)[c]).rotateLeft q := by
    rw [newC, newD, ← firstD, ← firstKeeps c (Ne.symm hac) hcd, ← firstKeeps b (Ne.symm hab) hbd]
    exact secondB
  refine ⟨newA, by rw [newD, newA], newC, newB, fun k hk => ?_⟩
  simp only [List.mem_cons, List.not_mem_nil, or_false, not_or] at hk
  obtain ⟨hka, hkb, hkc, hkd⟩ := hk
  exact (secondKeeps k hkc hkb).trans (firstKeeps k hka hkd)

/-- The four words the quarter-round writes, as the rule wires them, and the twelve it leaves (R202). -/
theorem quarterRound_spec (x : Vector U32 16) {a b c d : Fin 16} (h : [a, b, c, d].Nodup) :
    let a1 := x[a] + x[b]
    let d1 := (x[d] ^^^ a1).rotateLeft 16
    let c1 := x[c] + d1
    let b1 := (x[b] ^^^ c1).rotateLeft 12
    let a2 := a1 + b1
    let d2 := (d1 ^^^ a2).rotateLeft 8
    let c2 := c1 + d2
    let b2 := (b1 ^^^ c2).rotateLeft 7
    let y := quarterRound x a b c d
    y[a] = a2 ∧ y[b] = b2 ∧ y[c] = c2 ∧ y[d] = d2 ∧ ∀ k : Fin 16, k ∉ [a, b, c, d] → y[k] = x[k] := by
  intro a1 d1 c1 b1 a2 d2 c2 b2 y
  obtain ⟨ha1, hd1, hc1, hb1, keeps1⟩ := halfRound_spec x (r := 16) (q := 12) h (by decide) (by decide)
  obtain ⟨ha2, hd2, hc2, hb2, keeps2⟩ :=
    halfRound_spec (halfRound x a b c d 16 12) (r := 8) (q := 7) h (by decide) (by decide)
  rw [← quarterRound_eq_halves] at ha2 hd2 hc2 hb2 keeps2
  rw [ha1] at hd1
  rw [hd1] at hc1
  rw [hc1] at hb1
  rw [ha1, hb1] at ha2
  rw [hd1, ha2] at hd2
  rw [hc1, hd2] at hc2
  rw [hb1, hc2] at hb2
  exact ⟨ha2, hb2, hc2, hd2, fun k hk => (keeps2 k hk).trans (keeps1 k hk)⟩

/-- The groups of a double-round: the four columns, then the four diagonals (R203). -/
def roundGroups : List (Fin 16 × Fin 16 × Fin 16 × Fin 16) :=
  [(0, 4, 8, 12), (1, 5, 9, 13), (2, 6, 10, 14), (3, 7, 11, 15),
    (0, 5, 10, 15), (1, 6, 11, 12), (2, 7, 8, 13), (3, 4, 9, 14)]

theorem doubleRound_eq_foldl (x : Vector U32 16) : doubleRound x =
    roundGroups.foldl (fun x g => quarterRound x g.1 g.2.1 g.2.2.1 g.2.2.2) x := rfl

theorem doubleRounds_eq_iterate (n : Nat) (x : Vector U32 16) : doubleRounds n x = doubleRound^[n] x := by
  induction n generalizing x with
  | zero => rfl
  | succ n ih => exact ih (doubleRound x)

/-- `n` double-rounds are `n` passes over the groups (R203). -/
theorem doubleRounds_eq_foldl (n : Nat) (x : Vector U32 16) : doubleRounds n x =
    (List.range n).foldl
      (fun x _ => roundGroups.foldl (fun x g => quarterRound x g.1 g.2.1 g.2.2.1 g.2.2.2) x) x := by
  simp only [← doubleRound_eq_foldl, List.foldl_const, List.length_range, doubleRounds_eq_iterate]

/-- Byte k of the four that word i of the block is serialised to, from the low end (R203). -/
theorem blockFn_byte (st : Vector U32 16) (i : Fin 16) (k : Fin 4) :
    (blockFn st)[4 * i.val + k.val]'(by omega) = (blockWord st i).extractLsb' (8 * k.val) 8 := by
  have hword : (4 * i.val + k.val) / 4 = i.val := by omega
  have hbyte : (4 * i.val + k.val) % 4 = k.val := by omega
  simp only [blockFn_getElem, hword, hbyte]

/-- Settles O52: the quarter-round by its two halves, the rounds as passes over the groups, and the block's bytes
and 64-bit words as those of the sums. -/
theorem keystreamBlockFollowsTheRule : Obligations.KeystreamBlockFollowsTheRule := by
  refine ⟨fun x a b c d h => quarterRound_spec x h, fun st => ?_⟩
  intro groups x
  have hx : doubleRounds 10 st = x := doubleRounds_eq_foldl 10 st
  have hword : ∀ i : Fin 16, blockWord st i = x[i] + st[i] := fun i => by rw [← hx]; rfl
  refine ⟨fun i k => (blockFn_byte st i k).trans (by rw [hword]), fun k h l hh hl => ?_⟩
  have high : ⟨2 * k.val + 1, by omega⟩ = h := Fin.ext hh.symm
  have low : ⟨2 * k.val, by omega⟩ = l := Fin.ext hl.symm
  rw [blockWord64, high, low, hword, hword]

end Sys2Proof.Machine
end

/-! PROOFS. The block's state (spec 10_state.md): what each command and each event does to it, the invariant every
step keeps, the STATUS bits, and what the commands read. -/

namespace Sys2Proof.Machine

open Sys2Proof

/-! ### A command's outcome, as one equation -/

/-- The code a command ends with when R104 or INS's own rule stops it, the first in R234's order; `none` when its
body runs to the end. -/
def commandError (i : Instr) (s : State) : Option ErrCode :=
  if i.wellFormed = false then some .illegal
  else if accCommand i = true ∧ s.accValid = false then some .noAcc
  else if accCommand i = true ∧ s.accOvf = true then some .faulted
  else if streamCommand i = true ∧ s.ciphValid = false then some .noCipher
  else if insOverflows s i = true then some .overflow
  else none

/-- No command reads RES, ERR or a DATA word before its checks are over (R104, R145). -/
theorem commandError_ignores_data_results (i : Instr) (s : State) (d : Vector U64 4) (r : Vector U64 8)
    (e : ErrCode) :
    commandError i { s with data := d, res := r, err := e } = commandError i s := by
  cases i <;> rfl

theorem commandError_ne_ok (i : Instr) (s : State) : commandError i s ≠ some .ok := by
  unfold commandError
  split_ifs <;> simp

/-- A body that runs to its end has met every check (R104). -/
theorem commandError_of_passes {i : Instr} {s : State} (hw : i.wellFormed = true) (h : passes i s) :
    commandError i s = none := by
  obtain ⟨hacc, hstream, hins⟩ := h
  have noAcc : ¬(accCommand i = true ∧ s.accValid = false) := fun ⟨ha, hv⟩ => by simp [(hacc ha).1] at hv
  have noFault : ¬(accCommand i = true ∧ s.accOvf = true) := fun ⟨ha, ho⟩ => by simp [(hacc ha).2] at ho
  have noCipher : ¬(streamCommand i = true ∧ s.ciphValid = false) := fun ⟨hs, hv⟩ => by simp [hstream hs] at hv
  simp only [commandError, hw, hins, noAcc, noFault, noCipher, if_false, Bool.true_eq_false, Bool.false_eq_true]

/-- No stream command is an accumulator command (R234). -/
theorem accCommand_of_streamCommand {i : Instr} (h : streamCommand i = true) : accCommand i = false := by
  cases i with
  | cgen => rfl
  | cxor len => rfl
  | _ => cases h

/-- Every command either stops with the code of `commandError`, changing only ERR and, on an overflow, OVF, or has
its effect and ends with OK (R104, R232, R233). -/
theorem perform_outcome (i : Instr) (s : State) :
    (∃ c, commandError i s = some c ∧
        perform i s = raiseError c { s with accOvf := s.accOvf || decide (c = .overflow) }) ∨
      (commandError i s = none ∧ perform i s = complete (effect i s)) := by
  cases hw : i.wellFormed with
  | false => exact .inl ⟨.illegal, by simp [commandError, hw], by simp [perform_illFormed i s hw]⟩
  | true =>
    rcases perform_cases i s hw with ⟨ha, hv, h⟩ | ⟨ha, hv, ho, h⟩ | ⟨hs, hv, h⟩ | ⟨⟨len, rfl⟩, hv, ho, hn, h⟩ |
      ⟨hp, h⟩
    · exact .inl ⟨.noAcc, by simp [commandError, hw, ha, hv], by simp [h]⟩
    · exact .inl ⟨.faulted, by simp [commandError, hw, ha, hv, ho], by simp [h]⟩
    · exact .inl ⟨.noCipher, by simp [commandError, hw, hs, hv, accCommand_of_streamCommand hs], by simp [h]⟩
    · exact .inl ⟨.overflow, by simp [commandError, hw, hv, ho, hn, streamCommand], by simp [h]⟩
    · exact .inr ⟨commandError_of_passes hw hp, h⟩

theorem perform_of_error {i : Instr} {s : State} {c : ErrCode} (h : commandError i s = some c) :
    perform i s = raiseError c { s with accOvf := s.accOvf || decide (c = .overflow) } := by
  rcases perform_outcome i s with ⟨c', hc, hp⟩ | ⟨hc, -⟩
  · obtain rfl : c' = c := Option.some.inj (hc.symm.trans h)
    exact hp
  · cases hc.symm.trans h

theorem perform_of_no_error {i : Instr} {s : State} (h : commandError i s = none) :
    perform i s = complete (effect i s) := by
  rcases perform_outcome i s with ⟨c', hc, -⟩ | ⟨-, hp⟩
  · cases hc.symm.trans h
  · exact hp

/-! ### The fields a command leaves or sets -/

/-- No command writes WIGN (R34). -/
@[simp] theorem perform_wign (i : Instr) (s : State) : (perform i s).wign = s.wign := by
  rcases perform_outcome i s with ⟨c, -, h⟩ | ⟨-, h⟩ <;> rw [h]
  · rfl
  · rw [complete_wign, effect_frame]

/-- INIT, and no other command, makes ACC valid, and none makes it invalid (R31). -/
theorem perform_accValid (i : Instr) (s : State) :
    (perform i s).accValid = true ↔ s.accValid = true ∨ i = .init := by
  rcases perform_outcome i s with ⟨c, hc, h⟩ | ⟨-, h⟩ <;> rw [h]
  · have notInit : i ≠ .init := by rintro rfl; cases hc
    simp [notInit]
  · cases i <;> simp [effect]

/-- CINIT, and no other command, makes CIPH valid, and none makes it invalid (R32). -/
theorem perform_ciphValid (i : Instr) (s : State) :
    (perform i s).ciphValid = true ↔ s.ciphValid = true ∨ i = .cinit := by
  rcases perform_outcome i s with ⟨c, hc, h⟩ | ⟨-, h⟩ <;> rw [h]
  · have notCinit : i ≠ .cinit := by rintro rfl; cases hc
    simp [notCinit]
  · cases i <;> simp [effect]

/-! ### The fields a register write leaves or sets -/

/-- Two registers never share an offset (R27). -/
theorem offsetOf_inj {q r : Reg} : offsetOf q = offsetOf r ↔ q = r := by
  refine ⟨fun h => ?_, congrArg offsetOf⟩
  have hq := regAt_offsetOf q
  rw [h, regAt_offsetOf] at hq
  exact (Option.some.inj hq).symm

theorem offsetOf_eq_cmd {r : Reg} : offsetOf r = 0x10 ↔ r = .cmd := offsetOf_inj (r := .cmd)

theorem offsetOf_eq_status {r : Reg} : offsetOf r = 0x08 ↔ r = .status := offsetOf_inj (r := .status)

/-- A write while BUSY = 0 sets BUSY if and only if it issues a command (R61, R100). -/
theorem writeReg_busy {s : State} (r : Reg) (v : U64) (hb : s.busy = false) :
    (writeReg s r v).busy = true ↔ r = .cmd := by
  cases r with
  | cmd => simp [writeReg]
  | status => simp only [writeReg]; split <;> simp [hb]
  | _ => simp [writeReg, hb]

/-- A write while BUSY = 0 never sets WIGN, and clears it through bit 4 of STATUS alone (R34, R61). -/
theorem writeReg_wign (s : State) (r : Reg) (v : U64) :
    (writeReg s r v).wign = true ↔ s.wign = true ∧ ¬(r = .status ∧ v.getLsbD 4 = true) := by
  cases r with
  | status => cases h4 : v.getLsbD 4 <;> simp only [writeReg, h4] <;> simp
  | _ => simp [writeReg]

/-! ### One step, by the event that happened -/

/-- The core has the turn, at its own event or, by log entry 2, with no event left; `rest` is still to come. -/
def State.coreNext (s : State) (rest : List Event) : Prop :=
  s.agenda = .core :: rest ∨ (s.agenda = [] ∧ rest = [])

/-- The state a step answers, one constructor for each event of R68 and what it meets. -/
inductive StepAnswer (s : State) : State → Prop
  /-- The core's turn with no command outstanding (R244). -/
  | idle (rest : List Event) (turn : s.coreNext rest) (hb : s.busy = false) :
      StepAnswer s { s with agenda := rest }
  /-- The core performs the issued command (R101). -/
  | performed (rest : List Event) (i : Instr) (turn : s.coreNext rest) (hb : s.busy = true)
      (hd : decode s.cmdq = some i) : StepAnswer s (clearBusy (perform i { s with agenda := rest }))
  /-- The core performs a word that is no command (R103). -/
  | illegal (rest : List Event) (turn : s.coreNext rest) (hb : s.busy = true) (hd : decode s.cmdq = none) :
      StepAnswer s (clearBusy (performIllegal { s with agenda := rest }))
  /-- Reset (R260). -/
  | reset (rest : List Event) (ha : s.agenda = .reset :: rest) :
      StepAnswer s (resetBlock { s with agenda := rest })
  /-- A write while BUSY = 1 (R64). -/
  | lostWrite (r : Reg) (v : U64) (rest : List Event) (ha : s.agenda = .busWrite (offsetOf r) 8 v :: rest)
      (hb : s.busy = true) : StepAnswer s { s with agenda := rest, wign := true }
  /-- A write while BUSY = 0 (R61). -/
  | write (r : Reg) (v : U64) (rest : List Event) (ha : s.agenda = .busWrite (offsetOf r) 8 v :: rest)
      (hb : s.busy = false) : StepAnswer s (writeReg { s with agenda := rest } r v)
  /-- A read (R62). -/
  | read (r : Reg) (v : U64) (rest : List Event) (ha : s.agenda = .busRead (offsetOf r) 8 :: rest) :
      StepAnswer s { s with agenda := rest, replies := s.replies ++ [v] }

theorem stepAnswer_of_coreTurn {s t : State} {rest : List Event} (turn : s.coreNext rest)
    (h : coreTurn { s with agenda := rest } = .next t) : StepAnswer s t := by
  rcases coreTurn_cases { s with agenda := rest } with ⟨hb, hc⟩ | ⟨i, hb, hd, hc⟩ | ⟨hb, hd, hc⟩ <;>
    obtain rfl := next_inj.1 (hc.symm.trans h)
  · exact .idle rest turn hb
  · exact .performed rest i turn hb hd
  · exact .illegal rest turn hb hd

/-- Everything one step can do. -/
theorem stepAnswer_of_step {s t : State} (h : step s = .next t) : StepAnswer s t := by
  rcases step_cases h with ⟨ha, hc⟩ | ⟨rest, ha, hc⟩ | ⟨rest, ha, rfl⟩ | ⟨off, v, rest, r, ha, hr, hb, rfl⟩ |
    ⟨off, v, rest, r, ha, hr, hb, rfl⟩ | ⟨off, rest, r, ha, hr, rfl⟩
  · have hs : { s with agenda := [] } = s := by rw [← ha]
    exact stepAnswer_of_coreTurn (.inr ⟨ha, rfl⟩) (hs.symm ▸ hc)
  · exact stepAnswer_of_coreTurn (.inl ha) hc
  · exact .reset rest ha
  · obtain ⟨-, rfl⟩ := regAt_eq_some hr
    exact .lostWrite r v rest ha hb
  · obtain ⟨-, rfl⟩ := regAt_eq_some hr
    exact .write r v rest ha hb
  · obtain ⟨-, rfl⟩ := regAt_eq_some hr
    exact .read r _ rest ha

theorem performs_iff_of_coreNext {s : State} {rest : List Event} (turn : s.coreNext rest) (i : Instr) :
    s.performs i ↔ s.busy = true ∧ decode s.cmdq = some i := by
  rcases turn with ha | ⟨ha, -⟩ <;> simp [State.performs, ha]

theorem not_resets_of_coreNext {s : State} {rest : List Event} (turn : s.coreNext rest) : ¬s.resets := by
  rcases turn with ha | ⟨ha, -⟩ <;> simp [State.resets, ha]

/-- While the core has the turn the next event is no host access and no reset. -/
theorem agenda_ne_of_coreNext {s : State} {rest : List Event} (turn : s.coreNext rest) {e : Event} (he : e ≠ .core)
    (rest' : List Event) : s.agenda ≠ e :: rest' := by
  rcases turn with ha | ⟨ha, -⟩ <;> simp [ha, he.symm]

/-! ### The invariant -/

/-- Settles O9: both objects are invalid and hold R260's values. -/
theorem resetMeetsTheInvariant : Obligations.ResetMeetsTheInvariant :=
  ⟨nofun, fun _ => ⟨rfl, rfl⟩, nofun, fun _ => rfl⟩

theorem initAcc_ok (P : Params) (seed : U64) : (initAcc P seed).Ok := rfl

/-- Absorption keeps `fill = count mod 32`, even where the counter would wrap, since 32 divides 2^64 (R148). -/
theorem absorb_ok (P : Params) {a : Acc} (s : List Byte) (h : a.Ok) : (absorb P a s).Ok := by
  have hfill : a.fill < 32 := by rw [h]; exact Nat.mod_lt _ (by decide)
  obtain ⟨-, hcount, hfill', -⟩ := absorb_spec P a s hfill
  rw [Acc.Ok, hcount, hfill', h, BitVec.toNat_add, BitVec.toNat_ofNat]
  omega

/-- The body of a command keeps the invariant: INIT and CINIT construct, INS absorbs, CGEN and CXOR consume
keystream, and no other command touches ACC or CIPH (R106). -/
theorem effect_inv {i : Instr} {s : State} (hi : s.Inv Config.params) (hp : passes i s) :
    (effect i s).Inv Config.params := by
  obtain ⟨hacc, hacc', hciph, hciph'⟩ := hi
  obtain ⟨hvalid, hstream, -⟩ := hp
  cases i with
  | init => exact ⟨fun _ => initAcc_ok _ _, nofun, hciph, hciph'⟩
  | ins len =>
    have hv : s.accValid = true := (hvalid rfl).1
    exact ⟨fun _ => absorb_ok _ _ (hacc hv), fun h => (nomatch hv.symm.trans h), hciph, hciph'⟩
  | cinit => exact ⟨hacc, hacc', fun _ => cipherNew_ok _ _ _ _, nofun⟩
  | cgen =>
    have hv : s.ciphValid = true := hstream rfl
    exact ⟨hacc, hacc', fun _ => cipherGen_ok _ (hciph hv), fun h => (nomatch hv.symm.trans h)⟩
  | cxor len =>
    have hv : s.ciphValid = true := hstream rfl
    exact ⟨hacc, hacc', fun _ => cipherXor_ok _ _ (hciph hv), fun h => (nomatch hv.symm.trans h)⟩
  | _ => exact ⟨hacc, hacc', hciph, hciph'⟩

/-- A command keeps the invariant; an overflow faults a valid accumulator alone (R33, R145). -/
theorem perform_inv (i : Instr) {s : State} (hi : s.Inv Config.params) : (perform i s).Inv Config.params := by
  cases hw : i.wellFormed with
  | false => rw [perform_illFormed i s hw]; exact hi
  | true =>
    rcases perform_cases i s hw with ⟨-, -, h⟩ | ⟨-, -, -, h⟩ | ⟨-, -, h⟩ | ⟨-, hv, -, -, h⟩ | ⟨hp, h⟩ <;> rw [h]
    · exact hi
    · exact hi
    · exact hi
    · obtain ⟨hacc, -, hciph, hciph'⟩ := hi
      exact ⟨hacc, fun h => (nomatch hv.symm.trans h), hciph, hciph'⟩
    · exact effect_inv hi hp

/-- A register write reaches neither ACC nor CIPH (R61). -/
theorem writeReg_inv {s : State} (r : Reg) (v : U64) (hi : s.Inv Config.params) :
    (writeReg s r v).Inv Config.params := by
  obtain ⟨-, hacc, hvalid, hovf, hciph, hcvalid, -⟩ := writeReg_frame s r v
  simpa only [State.Inv, hacc, hvalid, hovf, hciph, hcvalid] using hi

/-- Settles O8: by the event that happened; a command keeps the invariant by `perform_inv`, reset establishes it,
and no other event reaches ACC or CIPH. -/
theorem stepKeepsTheInvariant : Obligations.StepKeepsTheInvariant := by
  intro s t hi h
  cases stepAnswer_of_step h with
  | idle => exact hi
  | performed rest i => exact perform_inv (s := { s with agenda := rest }) i hi
  | illegal => exact hi
  | reset => exact resetMeetsTheInvariant
  | lostWrite => exact hi
  | write r v rest => exact writeReg_inv (s := { s with agenda := rest }) r v hi
  | read => exact hi

/-! ### The STATUS word -/

/-- Flags are appended at the low end of STATUS, so bit 0 is the last of them (R29). -/
theorem getLsbD_append_flagBit {n : Nat} (x : BitVec n) (b : Bool) (k : Nat) :
    (x ++ flagBit b).getLsbD k = if k = 0 then b else x.getLsbD (k - 1) := by
  rw [BitVec.getLsbD_append]
  rcases Nat.eq_zero_or_pos k with rfl | hk
  · cases b <;> rfl
  · rw [if_neg (by omega), if_neg (by omega)]

theorem toNat_append_flagBit {n : Nat} (x : BitVec n) (b : Bool) :
    (x ++ flagBit b).toNat = 2 * x.toNat + b.toNat := by
  rw [BitVec.toNat_append, ← Nat.shiftLeft_add_eq_or_of_lt (flagBit b).isLt, Nat.shiftLeft_eq]
  cases b <;> simp [flagBit, Nat.mul_comm]

/-- The upper part of STATUS: ERR's code above three reserved zeros, and zeros above it (R29). -/
theorem getLsbD_errField (c : ErrCode) (k : Nat) :
    ((0 : BitVec 52) ++ errBits c ++ (0 : BitVec 3)).getLsbD k =
      if k < 3 then false else (errBits c).getLsbD (k - 3) := by
  rw [BitVec.getLsbD_append, BitVec.getLsbD_append]
  rcases Nat.lt_or_ge (k - 3) 4 with hin | hout
  · simp [hin]
  · simp [Nat.not_lt.2 hout, BitVec.getLsbD_of_ge (errBits c) _ hout]

/-- The bits of STATUS, from the low end (R29). -/
theorem statusWord_getLsbD (s : State) (k : Nat) :
    (statusWord s).getLsbD k =
      if k = 0 then s.busy else if k = 1 then s.accValid else if k = 2 then s.ciphValid
      else if k = 3 then s.accOvf else if k = 4 then s.wign else if k < 8 then false
      else (errBits s.err).getLsbD (k - 8) := by
  simp only [statusWord, getLsbD_append_flagBit, getLsbD_errField]
  rcases Nat.lt_or_ge k 8 with hk | hk
  · interval_cases k <;> rfl
  · obtain ⟨j, rfl⟩ := Nat.exists_eq_add_of_le' hk
    simp

/-- Every bit of STATUS outside the flags and ERR is 0 (R29). -/
theorem statusWord_reserved (s : State) {k : Nat} (h5 : 5 ≤ k) (hk : k ≤ 7 ∨ 12 ≤ k) :
    (statusWord s).getLsbD k = false := by
  rw [statusWord_getLsbD, if_neg (by omega), if_neg (by omega), if_neg (by omega), if_neg (by omega),
    if_neg (by omega)]
  split
  · rfl
  · exact BitVec.getLsbD_of_ge _ _ (by omega)

theorem errBits_le (c : ErrCode) : (errBits c).toNat ≤ 5 := by
  cases c <;> decide

/-- STATUS as a number: the five flags below 2^5, and ERR's code from bit 8 up (R29). -/
theorem statusWord_toNat (s : State) :
    (statusWord s).toNat = 256 * (errBits s.err).toNat + 16 * s.wign.toNat + 8 * s.accOvf.toNat +
      4 * s.ciphValid.toNat + 2 * s.accValid.toNat + s.busy.toNat := by
  have high : ((0 : BitVec 52) ++ errBits s.err ++ (0 : BitVec 3)).toNat = 8 * (errBits s.err).toNat := by
    rw [BitVec.toNat_append, BitVec.toNat_append]
    simp [Nat.shiftLeft_eq, Nat.mul_comm]
  simp only [statusWord, toNat_append_flagBit, high]
  ring

theorem statusWord_err (s : State) : (statusWord s).toNat / 2 ^ 8 = (errBits s.err).toNat := by
  have hw := s.wign.toNat_le
  have ho := s.accOvf.toNat_le
  have hc := s.ciphValid.toNat_le
  have ha := s.accValid.toNat_le
  have hb := s.busy.toNat_le
  rw [statusWord_toNat]
  omega

/-- Settles O47: the bits below 8 by `statusWord_getLsbD`, ERR's by STATUS as a number. -/
theorem statusBitsAreItsFields : Obligations.StatusBitsAreItsFields := by
  intro s
  exact ⟨statusWord_getLsbD s 0, statusWord_getLsbD s 1, statusWord_getLsbD s 2, statusWord_getLsbD s 3,
    statusWord_getLsbD s 4, statusWord_err s, errBits_le s.err, ⟨rfl, rfl, rfl, rfl, rfl, rfl⟩,
    fun _ => statusWord_reserved s⟩

/-! ### BUSY, WIGN and the valid bits -/

/-- Settles O11: by the event that happened; a write issues exactly at CMD's offset. -/
theorem busyChangesOnlyAtIssueAndPerformance : Obligations.BusyChangesOnlyAtIssueAndPerformance := by
  intro s t h
  cases stepAnswer_of_step h with
  | idle rest turn hb =>
    have noWrite : ∀ v rest', s.agenda ≠ .busWrite 0x10 8 v :: rest' := fun v => agenda_ne_of_coreNext turn nofun
    simp [hb, noWrite]
  | performed rest i turn hb | illegal rest turn hb =>
    rcases turn with ha | ⟨ha, -⟩ <;> simp [hb, ha]
  | reset rest ha => simp [ha, State.reset]
  | lostWrite r v rest ha hb => simp [ha, hb]
  | write r v rest ha hb => simp [ha, hb, writeReg_busy, offsetOf_eq_cmd]
  | read r v rest ha => simp [ha]

/-- Settles O12: by the event that happened; commands keep WIGN, and a register write clears it at STATUS alone. -/
theorem wignIsSetByLostWritesAlone : Obligations.WignIsSetByLostWritesAlone := by
  intro s t h
  cases stepAnswer_of_step h with
  | idle rest turn hb | performed rest i turn hb | illegal rest turn hb =>
    have noWrite : ∀ off v rest', s.agenda ≠ .busWrite off 8 v :: rest' :=
      fun _ _ => agenda_ne_of_coreNext turn nofun
    have noReset : ∀ rest', s.agenda ≠ .reset :: rest' := agenda_ne_of_coreNext turn nofun
    simp +contextual [noWrite, noReset]
  | reset rest ha => simp [ha, State.reset]
  | lostWrite r v rest ha hb => simp +contextual [ha, hb]
  | write r v rest ha hb =>
    have cleared := writeReg_wign { s with agenda := rest } r v
    refine ⟨by simp [hb], fun hw => ?_, fun hw => ?_⟩
    · rw [cleared]
      simp [hw, hb]
    · rw [← Bool.not_eq_true, cleared]
      simp [ha, hb, hw, offsetOf_eq_status]
  | read r v rest ha => simp +contextual [ha]

/-- Settles O18: by the event that happened; among the commands INIT and CINIT alone set the valid bits, and none
clears one. -/
theorem validBitsAreSetByConstructionAlone : Obligations.ValidBitsAreSetByConstructionAlone := by
  intro s t h
  refine ⟨⟨statusWord_getLsbD s 1, statusWord_getLsbD s 2⟩, ?_⟩
  cases stepAnswer_of_step h with
  | idle rest turn hb =>
    simp +contextual [performs_iff_of_coreNext turn, not_resets_of_coreNext turn, hb]
  | performed rest i turn hb hd =>
    simp +contextual [performs_iff_of_coreNext turn, not_resets_of_coreNext turn, hb, hd, ← Bool.not_eq_true,
      perform_accValid, perform_ciphValid]
  | illegal rest turn hb hd =>
    simp +contextual [performs_iff_of_coreNext turn, not_resets_of_coreNext turn, hd]
  | reset rest ha => simp [State.performs, State.resets, ha, State.reset]
  | lostWrite r v rest ha hb => simp +contextual [State.performs, State.resets, ha]
  | write r v rest ha hb =>
    obtain ⟨-, -, hacc, -, -, hciph, -⟩ := writeReg_frame { s with agenda := rest } r v
    rw [hacc, hciph]
    simp +contextual [State.performs, State.resets, ha]
  | read r v rest ha => simp +contextual [State.performs, State.resets, ha]

/-! ### What a command reads -/

/-- The words a command writes to RES when it succeeds (R86, R268). -/
def resultList : Instr → State → List U64
  | .mix, s => [mix Config.params s.data[0] s.data[1]]
  | .cgen, s => leWords 8 (cipherGen s.ciph).ks.toList
  | .cxor len, s => leWords 4 ((cipherXor s.ciph ((dbytes s).take len)).2 ++ zeros (32 - len))
  | i, s => finalWords s i

theorem resultList_length (i : Instr) (s : State) : (resultList i s).length = resultWords i := by
  cases i with
  | nop | init | ins | mix | cinit => rfl
  | cgen | cxor => exact leWords_length _ _
  | h64 | h128 | h256 | sec128 | sec256 | sec512 => simp [resultList, finalWords, resultWords, secure]

theorem effect_res (i : Instr) (s : State) : (effect i s).res = (writeRes (resultList i s) s).res := by
  cases i with
  | nop | init | ins | cinit => ext k hk; simp [effect, resultList, finalWords, writeRes]
  | _ => rfl

/-- A RES register that a command writes holds that word of its results, whatever it held before (R43). -/
theorem effect_res_getElem (i : Instr) (s : State) (k : Fin 8) (hk : k.val < resultWords i) :
    (effect i s).res[k] = (resultList i s)[k.val]'(by rw [resultList_length]; exact hk) := by
  rw [effect_res]
  exact writeRes_below _ _ _ k.isLt _

/-- No command's body reads RES or ERR (R51, R76). -/
theorem effect_ignores_results (i : Instr) (s : State) (r : Vector U64 8) (e : ErrCode) :
    effect i { s with res := r, err := e } =
      { effect i s with res := (effect i { s with res := r, err := e }).res, err := e } := by
  cases i <;> rfl

theorem resultList_ignores_results (i : Instr) (s : State) (r : Vector U64 8) (e : ErrCode) :
    resultList i { s with res := r, err := e } = resultList i s := by
  cases i <;> rfl

/-- A command on other RES and ERR ends as it would have but for RES, since it writes ERR itself (R51, R76). -/
theorem perform_ignores_results (i : Instr) (s : State) (r : Vector U64 8) (e : ErrCode) :
    perform i { s with res := r, err := e } =
      { perform i s with res := (perform i { s with res := r, err := e }).res } := by
  have same : commandError i { s with res := r, err := e } = commandError i s :=
    commandError_ignores_data_results i s s.data r e
  cases hc : commandError i s with
  | some c =>
    rw [perform_of_error hc, perform_of_error (same.trans hc)]
    rfl
  | none =>
    rw [perform_of_no_error hc, perform_of_no_error (same.trans hc), effect_ignores_results]
    rfl

/-- A command that succeeds writes the same result words on other RES and ERR (R51, R76). -/
theorem perform_results_agree (i : Instr) (s : State) (r : Vector U64 8) (e : ErrCode) (hok : (perform i s).err = .ok)
    (k : Fin 8) (hk : k.val < resultWords i) :
    (perform i { s with res := r, err := e }).res[k] = (perform i s).res[k] := by
  have same : commandError i { s with res := r, err := e } = commandError i s :=
    commandError_ignores_data_results i s s.data r e
  cases hc : commandError i s with
  | some c =>
    rw [perform_of_error hc, raiseError_err] at hok
    exact absurd (hok ▸ hc) (commandError_ne_ok i s)
  | none =>
    rw [perform_of_no_error hc, perform_of_no_error (same.trans hc), complete_res, complete_res,
      effect_res_getElem _ _ _ hk, effect_res_getElem _ _ _ hk]
    simp only [resultList_ignores_results]

/-- A finalization command writes RES and ERR alone (R167, R186). -/
theorem perform_finalizer_frame {f : Instr} (s : State) (hf : finalizer f = true) :
    perform f s = { s with res := (perform f s).res, err := (perform f s).err } := by
  rcases perform_finalizer_cases f s hf with ⟨-, h⟩ | ⟨-, -, h⟩ | ⟨-, -, h⟩ <;> rw [h]
  · rfl
  · rfl
  · rw [effect_finalizer f s hf]
    rfl

/-- Settles O37: the finalization command leaves a state that differs in RES and ERR alone, which no command reads. -/
theorem finalizationIsAQuery : Obligations.FinalizationIsAQuery := by
  intro f i s t u v hf ht hu hv
  rw [exec_eq_perform, next_inj] at ht hu hv
  have frame : t = { s with res := t.res, err := t.err } := ht ▸ perform_finalizer_frame s hf
  rw [frame] at hv
  subst hu hv
  exact ⟨frame, perform_ignores_results i s t.res t.err, perform_results_agree i s t.res t.err⟩

/-- INS and CXOR read DATA through the first LEN bytes of DBYTES alone (R143, R212). -/
theorem effect_data {i : Instr} {len : Nat} (hi : i = .ins len ∨ i = .cxor len) {s : State} {d : Vector U64 4}
    (hd : (dataBytes d).take len = (dbytes s).take len) :
    effect i { s with data := d } = { effect i s with data := d } := by
  have hd' : (dbytes { s with data := d }).take len = (dbytes s).take len := hd
  rcases hi with rfl | rfl <;> simp only [effect, hd'] <;> rfl

/-- Settles O32: the checks read no DATA, and the bodies only the bytes below LEN. -/
theorem dataBytesPastLenAreNotRead : Obligations.DataBytesPastLenAreNotRead := by
  intro s t d len i hi hd ht
  rw [exec_eq_perform, next_inj] at ht ⊢
  subst ht
  have same : commandError i { s with data := d } = commandError i s :=
    commandError_ignores_data_results i s d s.res s.err
  cases hc : commandError i s with
  | some c =>
    rw [perform_of_error hc, perform_of_error (same.trans hc)]
    rfl
  | none =>
    rw [perform_of_no_error hc, perform_of_no_error (same.trans hc), effect_data hi hd]
    rfl

/-! ### CINIT and the reset values -/

theorem extractLsb'_low_half (x : U64) : x.extractLsb' 0 32 = BitVec.ofNat 32 (x.toNat % 2 ^ 32) := by
  apply BitVec.eq_of_toNat_eq
  simp [BitVec.extractLsb'_toNat]

theorem extractLsb'_high_half (x : U64) : x.extractLsb' 32 32 = BitVec.ofNat 32 (x.toNat / 2 ^ 32) := by
  apply BitVec.eq_of_toNat_eq
  simp [BitVec.extractLsb'_toNat, Nat.shiftRight_eq_div_pow]

theorem keyWords_low (s : State) (j : Fin 4) :
    (keyWords s)[2 * j.val] = BitVec.ofNat 32 (s.key[j].toNat % 2 ^ 32) := by
  simp [keyWords, extractLsb'_low_half]

theorem keyWords_high (s : State) (j : Fin 4) :
    (keyWords s)[2 * j.val + 1] = BitVec.ofNat 32 (s.key[j].toNat / 2 ^ 32) := by
  have hj : (2 * j.val + 1) / 2 = j.val := by omega
  have hodd : (2 * j.val + 1) % 2 = 1 := by omega
  simp only [keyWords, Vector.getElem_ofFn, hj, hodd]
  exact extractLsb'_high_half _

/-- Settles O41: `cipher_new`'s fields, with the key and nonce words as halves of the registers. -/
theorem cinitConstructsTheCipher : Obligations.CinitConstructsTheCipher := by
  intro s
  exact ⟨perform .cinit s, exec_eq_perform .cinit s, rfl, rfl, rfl, rfl,
    fun j => ⟨keyWords_low s j, keyWords_high s j⟩, extractLsb'_low_half s.nonce0, extractLsb'_high_half s.nonce0,
    rfl, rfl⟩

/-- What each register reads right after reset (R27). -/
theorem readReg_reset (r : Reg) :
    readReg State.reset r = if r = .id then 0x4A53484153480007 else if r = .seed then 42 else 0 := by
  cases r with
  | data k | key k | res k | lane k => fin_cases k <;> rfl
  | _ => rfl

/-- Settles O51: each slot of the window is a register's, and its offset tells which it is. -/
theorem windowReadsItsResetValues : Obligations.WindowReadsItsResetValues := by
  intro k
  obtain ⟨r, hr⟩ := regAt_legal (off := 8 * k.val) (by omega) (by omega)
  have hoff : 8 * k.val = offsetOf r := (regAt_eq_some hr).2
  have isId : r = .id ↔ k.val = 0 := by
    have hid : offsetOf .id = 0 := rfl
    rw [← offsetOf_inj, ← hoff, hid]
    omega
  have isSeed : r = .seed ↔ k.val = 3 := by
    have hseed : offsetOf .seed = 0x18 := rfl
    rw [← offsetOf_inj, ← hoff, hseed]
    omega
  rw [step_busRead, busRead_legal hr]
  have value : readReg { State.reset with agenda := [] } r = _ := readReg_reset r
  rw [value]
  simp only [isId, isSeed]
  rfl

end Sys2Proof.Machine

/-! PROOFS. The register window and the bus (spec 20_memory.md): which accesses are legal, what a write does and what a
read answers, register by register, and the writes that a command does not see. -/

namespace Sys2Proof.Machine

open Sys2Proof

/-! ### Legal and illegal accesses (R63, R64) -/

/-- Settles O49: R63's condition is the condition under which the window has a register for the access. -/
theorem onlyAlignedWindowAccessesAreLegal : Obligations.OnlyAlignedWindowAccessesAreLegal := by
  intro s off width v rest w r
  split
  case isTrue legal =>
    obtain ⟨rfl, aligned, inside⟩ := legal
    obtain ⟨reg, hreg⟩ := regAt_legal aligned inside
    refine ⟨?_, _, busRead_legal hreg⟩
    cases hb : s.busy with
    | false => exact ⟨_, busWrite_idle v hreg hb⟩
    | true => exact ⟨_, busWrite_busy v hreg hb⟩
  case isFalse illegal =>
    have noReg : regAt off width = none := regAt_illegal illegal
    constructor
    · simp only [w, step_busWrite, busWrite, noReg]
    · simp only [r, step_busRead, busRead, noReg]

/-- A step that meets a legal write while BUSY = 1 sets WIGN and drops the write (R64). -/
theorem step_lostWrite {s : State} {off : Nat} (v : U64) (rest : List Event) (hb : s.busy = true)
    (aligned : off % 8 = 0) (inside : off ≤ 0xF8) :
    step { s with agenda := .busWrite off 8 v :: rest } = .next { s with agenda := rest, wign := true } := by
  obtain ⟨r, hr⟩ := regAt_legal aligned (by omega)
  exact busWrite_busy v hr hb

/-- Settles O48: the offset is that of some register, and a busy block drops a write of any of them. -/
theorem writeWhileBusyIsIgnored : Obligations.WriteWhileBusyIsIgnored :=
  fun _ _ v rest hb aligned inside => step_lostWrite v rest hb aligned inside

/-! ### The effect of a write (R61) -/

/-- A step that meets a write of a register's offset while BUSY = 0 has that register's effect (R61). -/
theorem step_writeReg {s : State} (r : Reg) (v : U64) (rest : List Event) (hb : s.busy = false) :
    step { s with agenda := .busWrite (offsetOf r) 8 v :: rest } = .next (writeReg { s with agenda := rest } r v) :=
  busWrite_idle v (regAt_offsetOf r) hb

/-- STATUS keeps WIGN unless the value written has bit 4 set (R34, R61). -/
theorem writeReg_status (s : State) (v : U64) :
    writeReg s .status v = { s with wign := s.wign && !v.getLsbD 4 } := by
  cases h4 : v.getLsbD 4 <;> simp only [writeReg, h4] <;> simp

/-- The upper part of the window, from the reserved offsets on, is read-only (R61). -/
theorem writeReg_readOnly {r : Reg} (hr : 0x70 ≤ offsetOf r) (s : State) (v : U64) : writeReg s r v = s := by
  cases r with
  | status | cmd | seed | nonce0 | nonce1 => simp [offsetOf] at hr
  | data k | key k => simp only [offsetOf] at hr; omega
  | _ => rfl

theorem step_write_readOnly {s : State} {off : Nat} (v : U64) (rest : List Event) (hb : s.busy = false)
    (aligned : off % 8 = 0) (upper : 0x70 ≤ off) (inside : off < 0x100) :
    step { s with agenda := .busWrite off 8 v :: rest } = .next { s with agenda := rest } := by
  obtain ⟨r, hr⟩ := regAt_legal aligned inside
  obtain ⟨-, rfl⟩ := regAt_eq_some hr
  rw [step_writeReg r v rest hb, writeReg_readOnly upper]

/-- Settles O45: one clause for each register that can be written, and the read-only ones by their place. -/
theorem busWriteEffects : Obligations.BusWriteEffects := by
  intro s v rest hb after
  refine ⟨step_writeReg .seed v rest hb, fun k => step_writeReg (.data k) v rest hb,
    fun k => step_writeReg (.key k) v rest hb, step_writeReg .nonce0 v rest hb, ?nonce1,
    step_writeReg .cmd v rest hb, ?status, step_writeReg .id v rest hb,
    fun k => step_write_readOnly v rest hb (by omega) (by omega) (by omega),
    fun k => step_write_readOnly v rest hb (by omega) (by omega) (by omega)⟩
  case nonce1 =>
    rw [← extractLsb'_low_half]
    exact step_writeReg .nonce1 v rest hb
  case status => exact (step_writeReg .status v rest hb).trans (congrArg _ (writeReg_status _ v))

/-! ### The value a read answers (R62) -/

/-- No register's value depends on the events still to come. -/
theorem readReg_agenda (s : State) (rest : List Event) (r : Reg) :
    readReg { s with agenda := rest } r = readReg s r := by
  cases r <;> rfl

/-- A step that meets a read of a register's offset answers that register's value and changes nothing else (R62). -/
theorem step_readReg (s : State) (r : Reg) (rest : List Event) :
    step { s with agenda := .busRead (offsetOf r) 8 :: rest } =
      .next { s with agenda := rest, replies := s.replies ++ [readReg s r] } := by
  rw [step_busRead, busRead_legal (regAt_offsetOf r), readReg_agenda]

theorem readReg_nonce1 (s : State) : readReg s .nonce1 = BitVec.ofNat 64 s.nonce1.toNat :=
  (BitVec.ofNat_toNat 64 s.nonce1).symm

theorem readReg_fill {s : State} (h : s.acc.fill < 64) :
    readReg s .fill = if s.accValid = true then BitVec.ofNat 64 s.acc.fill else 0 := by
  rw [readReg, accView, BitVec.zeroExtend, BitVec.setWidth_ofNat_of_le_of_lt (by decide) h]

theorem readReg_ccur {s : State} (h : s.ciph.cur < 128) :
    readReg s .ccur = if s.ciphValid = true then BitVec.ofNat 64 s.ciph.cur else 0 := by
  rw [readReg, cipherView, BitVec.zeroExtend, BitVec.setWidth_ofNat_of_le_of_lt (by decide) h]

/-- Settles O46: each offset is a register's, and `readReg` is the value its rule defines. -/
theorem busReadValues : Obligations.BusReadValues := by
  intro s rest reads
  have answers (r : Reg) : reads (offsetOf r) (readReg s r) := step_readReg s r rest
  exact ⟨answers .id, answers .status, answers .cmd, answers .seed,
    fun k => ⟨answers (.data k), answers (.key k)⟩, answers .nonce0, readReg_nonce1 s ▸ answers .nonce1,
    answers (.reserved 0), answers (.reserved 1), fun k => answers (.res k), fun k => answers (.lane k),
    answers .count, fun hfill => readReg_fill (s := s) (by omega) ▸ answers .fill,
    answers .cctr, fun hcur => readReg_ccur (s := s) (by omega) ▸ answers .ccur⟩

/-! ### Writes that come too late (R64, R72) -/

theorem commandError_ignores_wign (i : Instr) (s : State) (b : Bool) :
    commandError i { s with wign := b } = commandError i s := by
  cases i <;> rfl

theorem effect_ignores_wign (i : Instr) (s : State) (b : Bool) :
    effect i { s with wign := b } = { effect i s with wign := b } := by
  cases i <;> rfl

/-- No command reads WIGN, nor writes it (R34). -/
theorem perform_ignores_wign (i : Instr) (s : State) (b : Bool) :
    perform i { s with wign := b } = { perform i s with wign := b } := by
  have same := commandError_ignores_wign i s b
  cases hc : commandError i s with
  | some c =>
    rw [perform_of_error hc, perform_of_error (same.trans hc)]
    rfl
  | none =>
    rw [perform_of_no_error hc, perform_of_no_error (same.trans hc), effect_ignores_wign]
    rfl

/-- The core performs the word it finds in CMDQ (R101). -/
theorem coreTurn_of_decode_some {s : State} {i : Instr} (hb : s.busy = true) (hd : decode s.cmdq = some i) :
    coreTurn s = .next (clearBusy (perform i s)) := by
  simp [coreTurn, hb, performQueued, fetch, hd]

theorem coreTurn_of_decode_none {s : State} (hb : s.busy = true) (hd : decode s.cmdq = none) :
    coreTurn s = .next (clearBusy (performIllegal s)) := by
  simp [coreTurn, hb, performQueued, fetch, hd]

/-- The core's performance is the same whatever WIGN is, and keeps it (R34, R101). -/
theorem coreTurn_ignores_wign {s t : State} (b : Bool) (hb : s.busy = true) (h : coreTurn s = .next t) :
    coreTurn { s with wign := b } = .next { t with wign := b } := by
  cases hd : decode s.cmdq with
  | some i =>
    obtain rfl := next_inj.1 ((coreTurn_of_decode_some hb hd).symm.trans h)
    have performed := coreTurn_of_decode_some (s := { s with wign := b }) hb hd
    rwa [perform_ignores_wign] at performed
  | none =>
    obtain rfl := next_inj.1 ((coreTurn_of_decode_none hb hd).symm.trans h)
    exact coreTurn_of_decode_none (s := { s with wign := b }) hb hd

/-- An 8-byte write that R63 allows. -/
def Event.legalWrite (e : Event) : Prop := ∃ off v, e = .busWrite off 8 v ∧ off % 8 = 0 ∧ off ≤ 0xF8

/-- While BUSY = 1 any run of legal writes leaves its trace in WIGN alone (R64). -/
theorem run_lostWrites (ws rest : List Event) (k : Nat) {s : State} (hb : s.busy = true)
    (hws : ∀ e ∈ ws, e.legalWrite) :
    core.run (ws.length + k) { s with agenda := ws ++ rest } =
      core.run k { s with agenda := rest, wign := s.wign || !ws.isEmpty } := by
  induction ws generalizing s with
  | nil => simp
  | cons e ws ih =>
    obtain ⟨⟨off, v, rfl, aligned, inside⟩, hrest⟩ := List.forall_mem_cons.1 hws
    have lost := step_lostWrite v (ws ++ rest) hb aligned inside
    have later := ih (s := { s with wign := true }) hb hrest
    calc core.run ((ws.length + 1) + k) { s with agenda := .busWrite off 8 v :: (ws ++ rest) }
        = core.run (ws.length + k) { s with agenda := ws ++ rest, wign := true } := by
          rw [Nat.add_right_comm]
          exact run_next (ws.length + k) lost
      _ = core.run k { s with agenda := rest, wign := true || !ws.isEmpty } := later
      _ = core.run k { s with agenda := rest, wign := s.wign || true } := by simp

/-- Settles O13: the writes leave WIGN set and nothing else changed, and the core's turn does not depend on WIGN. -/
theorem lateWritesDoNotReachTheCommand : Obligations.LateWritesDoNotReachTheCommand := by
  intro s t ws hb hws ht
  have late := coreTurn_ignores_wign (s := { s with agenda := [] }) (s.wign || !ws.isEmpty) hb ht
  rw [run_lostWrites ws [.core] 1 hb hws]
  exact run_next 0 late

end Sys2Proof.Machine

/-! PROOFS. The command word (spec 30_encoding.md): the decoder and the encoder are inverse, the illegal words, and the
example words. -/

namespace Sys2Proof

/-! ### A word is its three fields (R81) -/

/-- Every field of a word put together from RSV, LEN and OPC reads back (R81). -/
theorem fields_append (rsv : BitVec 50) (len : BitVec 6) (opc : Byte) :
    rsvField (rsv ++ len ++ opc) = rsv ∧ lenField (rsv ++ len ++ opc) = len ∧ opcField (rsv ++ len ++ opc) = opc := by
  refine ⟨?_, ?_, BitVec.extractLsb'_append_eq_right⟩
  · rw [rsvField, BitVec.extractLsb'_append_eq_of_le (by omega)]
    exact BitVec.extractLsb'_append_eq_left
  · rw [lenField, BitVec.extractLsb'_append_eq_of_le (by omega)]
    exact BitVec.extractLsb'_append_eq_right

/-- The three fields leave no bit of a word out (R81). -/
theorem append_fields (w : U64) : rsvField w ++ lenField w ++ opcField w = w := by
  rw [rsvField, lenField, opcField, BitVec.extractLsb'_append_extractLsb'_eq_extractLsb' (by rfl),
    BitVec.extractLsb'_append_extractLsb'_eq_extractLsb' (by rfl)]
  exact BitVec.extractLsb'_eq_self

theorem opcField_toNat (w : U64) : (opcField w).toNat = w.toNat % 256 := by
  simp [opcField]

theorem lenField_toNat (w : U64) : (lenField w).toNat = w.toNat / 256 % 64 := by
  simp [lenField, Nat.shiftRight_eq_div_pow]

theorem rsvField_eq_zero_iff (w : U64) : rsvField w = 0 ↔ w.toNat / 2 ^ 14 = 0 := by
  rw [rsvField, ← BitVec.toNat_inj, BitVec.extractLsb'_toNat, Nat.shiftRight_eq_div_pow,
    show (0 : BitVec 50).toNat = 0 from rfl]
  have := w.isLt
  omega

/-! ### The opcode map (R86) -/

/-- Each command stands in the row of its own OPC, in the format that takes its LEN (R85, R86). -/
theorem format_opcodeOf (i : Instr) :
    (∃ cmd, formatL (opcodeOf i) = some cmd ∧ cmd (lengthOf i) = i) ∨
      (formatN (opcodeOf i) = some i ∧ formatL (opcodeOf i) = none ∧ lengthOf i = 0) := by
  cases i with
  | ins len => exact .inl ⟨.ins, rfl, rfl⟩
  | cxor len => exact .inl ⟨.cxor, rfl, rfl⟩
  | _ => exact .inr ⟨rfl, rfl, rfl⟩

/-- A format N row is no format L row: `formatN_of_formatL`, read from the other side (R85). -/
theorem formatL_of_formatN {o : Byte} {i : Instr} (h : formatN o = some i) : formatL o = none := by
  cases hL : formatL o with
  | none => rfl
  | some cmd => cases h.symm.trans (formatN_of_formatL hL)

theorem formatN_isSome_iff (o : Byte) :
    (formatN o).isSome = true ↔
      o.toNat ∈ [0x00, 0x01, 0x03, 0x10, 0x11, 0x12, 0x20, 0x21, 0x22, 0x30, 0x31] := by
  unfold formatN
  split <;> simp_all

theorem formatL_isSome_iff (o : Byte) : (formatL o).isSome = true ↔ o.toNat ∈ [0x02, 0x32] := by
  unfold formatL
  split_ifs <;> simp_all [← BitVec.toNat_inj]

theorem lengthOf_le_of_wellFormed {i : Instr} (h : i.wellFormed = true) : lengthOf i ≤ 32 := by
  cases i with
  | ins len => exact of_decide_eq_true h
  | cxor len => exact of_decide_eq_true h
  | _ => exact Nat.zero_le 32

/-! ### When a word decodes (R89, R90) -/

/-- The words that decode to a command are those with its fields (R89): `decode_some` and its converse. -/
theorem decode_eq_some_iff {w : U64} {i : Instr} :
    decode w = some i ↔
      rsvField w = 0 ∧ opcodeOf i = opcField w ∧ BitVec.ofNat 6 (lengthOf i) = lenField w ∧ i.wellFormed = true := by
  refine ⟨decode_some, fun ⟨rsv, opc, len, wf⟩ => ?_⟩
  have hlen : lengthOf i ≤ 32 := lengthOf_le_of_wellFormed wf
  have len_toNat : (lenField w).toNat = lengthOf i := by rw [← len, BitVec.toNat_ofNat]; omega
  rcases format_opcodeOf i with ⟨cmd, hL, hcmd⟩ | ⟨hN, hL, hzero⟩
  · simp [decode, decodeWord, rsv, ← opc, hL, len_toNat, hcmd, Nat.not_lt.2 hlen]
  · simp [decode, decodeWord, rsv, ← opc, hL, hN, ← len, hzero]

/-- The words that do not decode, by their fields: the four grounds of R90, in the order (a) to (d). -/
theorem decode_eq_none_iff (w : U64) :
    decode w = none ↔
      ¬((formatN (opcField w)).isSome = true ∨ (formatL (opcField w)).isSome = true) ∨ rsvField w ≠ 0 ∨
        ((formatN (opcField w)).isSome = true ∧ lenField w ≠ 0) ∨
        ((formatL (opcField w)).isSome = true ∧ 32 < (lenField w).toNat) := by
  rcases decodeWord_cases w with ⟨rsv, e⟩ | ⟨rsv, hL, hN, e⟩ | ⟨rsv, ⟨i, hN⟩, len, e⟩ | ⟨rsv, ⟨cmd, hL⟩, len, e⟩ |
    ⟨i, rsv, hN, len, e⟩ | ⟨cmd, rsv, hL, len, e⟩
  · exact iff_of_true (by simp [decode, e]) (.inr (.inl rsv))
  · exact iff_of_true (by simp [decode, e]) (.inl (by simp [hL, hN]))
  · exact iff_of_true (by simp [decode, e]) (.inr (.inr (.inl ⟨by simp [hN], len⟩)))
  · exact iff_of_true (by simp [decode, e]) (.inr (.inr (.inr ⟨by simp [hL], len⟩)))
  · simp [decode, e, rsv, hN, formatL_of_formatN hN, len]
  · simp [decode, e, rsv, hL, formatN_of_formatL hL, len]

/-! ### The obligations -/

/-- Settles O1: the encoding has the command's fields, and a word with a command's fields decodes to it. -/
theorem encodedCommandDecodes : Obligations.EncodedCommandDecodes := by
  intro i wf
  obtain ⟨rsv, len, opc⟩ := fields_append 0 (BitVec.ofNat 6 (lengthOf i)) (opcodeOf i)
  exact decode_eq_some_iff.2 ⟨rsv, opc.symm, len.symm, wf⟩

/-- Settles O2: a word that decodes has its command's fields, and a word is its fields. -/
theorem decodedWordIsItsEncoding : Obligations.DecodedWordIsItsEncoding := by
  intro w i h
  obtain ⟨rsv, opc, len, wf⟩ := decode_eq_some_iff.1 h
  refine ⟨wf, ?_⟩
  rw [encode, opc, len, ← rsv, append_fields]

/-- Settles O3: the grounds by fields, each field read off the word's number. -/
theorem illegalWordsAreThoseOfTheRule : Obligations.IllegalWordsAreThoseOfTheRule := by
  intro w opc len formatNCodes formatLCodes
  have codeN : (formatN (opcField w)).isSome = true ↔ opc ∈ formatNCodes := by
    rw [formatN_isSome_iff, opcField_toNat]
  have codeL : (formatL (opcField w)).isSome = true ↔ opc ∈ formatLCodes := by
    rw [formatL_isSome_iff, opcField_toNat]
  have rsv : rsvField w ≠ 0 ↔ w.toNat / 2 ^ 14 ≠ 0 := not_congr (rsvField_eq_zero_iff w)
  have zeroLen : lenField w ≠ 0 ↔ len ≠ 0 := by
    rw [Ne, ← BitVec.toNat_inj, lenField_toNat]; rfl
  rw [decode_eq_none_iff, codeN, codeL, rsv, zeroLen, lenField_toNat, List.mem_append]
  rfl

/-- Settles O4: the legal examples by the round trip, the illegal ones by their grounds (R90 (d), (a) and (b)). -/
theorem exampleWordsDecode : Obligations.ExampleWordsDecode := by
  refine ⟨fun p hp => ?_, ?_, ?_, ?_⟩
  · have encodes : p.2.wellFormed = true ∧ encode p.2 = p.1 := by
      revert p; decide
    obtain ⟨wf, word⟩ := encodes
    exact ⟨word ▸ encodedCommandDecodes p.2 wf, word⟩
  · exact (decode_eq_none_iff _).2 (.inr (.inr (.inr ⟨rfl, by decide⟩)))
  · exact (decode_eq_none_iff _).2 (.inl (by decide))
  · exact (decode_eq_none_iff _).2 (.inr (.inl (by decide)))

end Sys2Proof

/-! PROOFS. Streams of INS commands (spec 42_accumulator.md R147), and NOP. -/

namespace Sys2Proof.Machine

open Sys2Proof

/-- Settles O20: NOP's body is empty, and what is left is the end of every command (R104). -/
theorem nopSetsErrOk : Obligations.NopSetsErrOk := fun s => exec_eq_perform .nop s

/-! ### Absorption in pieces -/

/-- Two accumulators agree on all that a rule reads of them: the stale pending bytes may differ (R24). -/
def Acc.Agrees (a b : Acc) : Prop :=
  a.lane = b.lane ∧ a.count = b.count ∧ a.fill = b.fill ∧ livePend a = livePend b

theorem Acc.Agrees.trans {a b c : Acc} (hab : a.Agrees b) (hbc : b.Agrees c) : a.Agrees c := by
  obtain ⟨lane, count, fill, pend⟩ := hab
  obtain ⟨lane', count', fill', pend'⟩ := hbc
  exact ⟨lane.trans lane', count.trans count', fill.trans fill', pend.trans pend'⟩

/-- Absorbing two strings in turn is absorbing their concatenation (R147): the blocks of the first string are the
first blocks of the whole, and what it leaves pending heads the rest. -/
theorem absorb_append (P : Params) (a : Acc) (s t : List Byte) (h : a.fill < 32) :
    (absorb P (absorb P a s) t).Agrees (absorb P a (s ++ t)) := by
  obtain ⟨lane, count, fill, pend⟩ := absorb_spec P a s h
  obtain ⟨lane', count', fill', pend'⟩ := absorb_spec P (absorb P a s) t (absorb_fill_lt P a s h)
  obtain ⟨laneW, countW, fillW, pendW⟩ := absorb_spec P a (s ++ t) h
  have qlen : (livePend a ++ s).length = a.fill + s.length := by
    rw [List.length_append, livePend_length a h.le]
  have used : 32 * ((a.fill + s.length) / 32) ≤ (livePend a ++ s).length := by omega
  have rest : livePend (absorb P a s) ++ t =
      (livePend a ++ (s ++ t)).drop (32 * ((a.fill + s.length) / 32)) := by
    rw [pend, ← List.append_assoc, List.drop_append_of_le_length used]
  have blocks : (a.fill + (s ++ t).length) / 32 =
      (a.fill + s.length) / 32 + ((absorb P a s).fill + t.length) / 32 := by
    rw [fill, List.length_append]; omega
  refine ⟨?_, ?_, ?_, ?_⟩
  · rw [lane', rest, laneW, blocks, processSpans_add]
    apply processSpans_lane_congr
    rw [lane, ← List.append_assoc, processSpans_append P _ a _ t used]
  · rw [count', count, countW, List.length_append, BitVec.ofNat_add, BitVec.add_assoc]
  · rw [fill', fill, fillW, List.length_append]; omega
  · rw [pend', rest, pendW, blocks, List.drop_drop, Nat.mul_add]

/-! ### INS commands in sequence -/

/-- The state a completed INS leaves, its DATA words loaded first (R143). -/
def afterIns (d : Vector U64 4) (len : Nat) (s : State) : State :=
  complete (setAcc (absorb Config.params s.acc ((dataBytes d).take len)) { s with data := d })

@[simp] theorem afterIns_acc (d : Vector U64 4) (len : Nat) (s : State) :
    (afterIns d len s).acc = absorb Config.params s.acc ((dataBytes d).take len) := rfl

/-- INS completes when the accumulator is valid, not faulted, and its counter has room (R143, R145). -/
theorem perform_ins (d : Vector U64 4) {s : State} {len : Nat} (hlen : len ≤ 32) (valid : s.accValid = true)
    (noFault : s.accOvf = false) (room : s.acc.count.toNat + len ≤ 2 ^ 64 - 1) :
    perform (.ins len) { s with data := d } = afterIns d len s := by
  have noOverflow : insOverflows { s with data := d } (.ins len) = false := decide_eq_false (Nat.not_lt.2 room)
  have passed : passes (.ins len) { s with data := d } :=
    ⟨fun _ => ⟨valid, noFault⟩, by simp [streamCommand], noOverflow⟩
  exact perform_of_no_error (commandError_of_passes (decide_eq_true hlen) passed)

theorem insAll_cons {s t : State} {d : Vector U64 4} {len : Nat} (cs : List (Vector U64 4 × Nat))
    (h : perform (.ins len) { s with data := d } = t) : insAll ((d, len) :: cs) s = insAll cs t := by
  simp only [insAll, exec_eq_perform, h]

theorem absorb_count_toNat (P : Params) {a : Acc} {s : List Byte} (h : a.fill < 32)
    (room : a.count.toNat + s.length < 2 ^ 64) : (absorb P a s).count.toNat = a.count.toNat + s.length := by
  obtain ⟨-, count, -, -⟩ := absorb_spec P a s h
  rw [count, BitVec.toNat_add, BitVec.toNat_ofNat]
  omega

/-- Settles O30, by induction on the commands: each leaves the premises true of the next, and the absorptions join. -/
theorem insSequenceAbsorbsItsStream : Obligations.InsSequenceAbsorbsItsStream := by
  intro cs
  induction cs with
  | nil => exact fun s _ _ _ _ _ => ⟨s, rfl, rfl, rfl, rfl, rfl⟩
  | cons c cs ih =>
    obtain ⟨d, len⟩ := c
    intro s lens valid noFault fill room
    obtain ⟨hlen, lens⟩ := List.forall_mem_cons.1 lens
    have bytes : ((dataBytes d).take len).length = len := by simpa using hlen
    rw [insStream, List.length_append, bytes] at room
    have first := insAll_cons cs (perform_ins d hlen valid noFault (by omega))
    have count := absorb_count_toNat Config.params (s := (dataBytes d).take len) fill (by omega)
    have fill' := absorb_fill_lt Config.params s.acc ((dataBytes d).take len) fill
    have room' : (afterIns d len s).acc.count.toNat + (insStream cs).length ≤ 2 ^ 64 - 1 := by
      rw [afterIns_acc, count, bytes]; omega
    obtain ⟨t, run, agrees⟩ := ih (afterIns d len s) lens valid noFault fill' room'
    exact ⟨t, first.trans run,
      Acc.Agrees.trans agrees (absorb_append Config.params s.acc ((dataBytes d).take len) (insStream cs) fill)⟩

end Sys2Proof.Machine

/-! PROOFS. The command interface (spec 40_command_interface.md): the core's step performs the issued command or
refuses an illegal word, always completes, and clears BUSY; what a command writes, and what it leaves alone when it is
refused. -/

namespace Sys2Proof.Machine

open Sys2Proof

/-! ### What a command writes (R104, R106) -/

/-- No command writes an operand register, BUSY, WIGN, the issued word or the host side (R106). -/
theorem perform_frame (i : Instr) (s : State) :
    perform i s = { s with
      err := (perform i s).err, res := (perform i s).res, acc := (perform i s).acc
      accValid := (perform i s).accValid, accOvf := (perform i s).accOvf
      ciph := (perform i s).ciph, ciphValid := (perform i s).ciphValid } := by
  rcases perform_outcome i s with ⟨c, -, h⟩ | ⟨-, h⟩ <;> rw [h]
  · rfl
  · rw [effect_frame i s]
    rfl

@[simp] theorem perform_agenda (i : Instr) (s : State) : (perform i s).agenda = s.agenda := by
  rw [perform_frame]

/-- A RES register past the command's own results keeps its value (R43, R268). -/
theorem perform_res_above (i : Instr) (s : State) (k : Fin 8) (hk : resultWords i ≤ k.val) :
    (perform i s).res[k] = s.res[k] := by
  rcases perform_outcome i s with ⟨c, -, h⟩ | ⟨-, h⟩ <;> rw [h]
  · rfl
  · rw [complete_res, effect_res]
    exact writeRes_above _ s k k.isLt ((resultList_length i s).trans_le hk)

/-- A command ends with OVERFLOW only by INS's own check, and so only INS does (R145). -/
theorem eq_ins_of_commandError_overflow {i : Instr} {s : State} (h : commandError i s = some .overflow) :
    ∃ len, i = .ins len := by
  have overflows : insOverflows s i = true := by
    by_contra hn
    rw [commandError, if_neg hn] at h
    split_ifs at h <;> cases h
  cases i with
  | ins len => exact ⟨len, rfl⟩
  | _ => cases overflows

/-- INIT and INS alone write ACC's data and its fault bit (R106, R233). -/
theorem perform_acc {i : Instr} (s : State) (notInit : i ≠ .init) (notIns : ∀ len, i ≠ .ins len) :
    (perform i s).acc = s.acc ∧ (perform i s).accOvf = s.accOvf := by
  rcases perform_outcome i s with ⟨c, hc, h⟩ | ⟨-, h⟩ <;> rw [h]
  · have noOverflow : c ≠ .overflow := by
      rintro rfl
      obtain ⟨len, hi⟩ := eq_ins_of_commandError_overflow hc
      exact notIns len hi
    simp [noOverflow]
  · cases i with
    | init => exact absurd rfl notInit
    | ins len => exact absurd rfl (notIns len)
    | _ => exact ⟨rfl, rfl⟩

/-- CINIT, CGEN and CXOR alone write CIPH's data (R106). -/
theorem perform_ciph {i : Instr} (s : State) (notCinit : i ≠ .cinit) (notStream : streamCommand i = false) :
    (perform i s).ciph = s.ciph := by
  rcases perform_outcome i s with ⟨c, -, h⟩ | ⟨-, h⟩ <;> rw [h]
  · rfl
  · cases i with
    | cinit => exact absurd rfl notCinit
    | cgen | cxor => cases notStream
    | _ => rfl

/-- Settles O16: the frame of `perform`, and for each object the commands that write it. -/
theorem commandWritesOnlyItsOwnResults : Obligations.CommandWritesOnlyItsOwnResults := by
  intro i s t h
  rw [exec_eq_perform, next_inj] at h
  subst h
  refine ⟨perform_frame i s, perform_res_above i s, fun notInit => ⟨?_, perform_acc s notInit⟩,
    fun notCinit => ⟨?_, perform_ciph s notCinit⟩⟩
  · rw [Bool.eq_iff_iff, perform_accValid, or_iff_left notInit]
  · rw [Bool.eq_iff_iff, perform_ciphValid, or_iff_left notCinit]

/-! ### Refused commands (R104, R230, R232) -/

/-- Settles O15: a command that does not end with OK is one that its checks or an overflow stopped. -/
theorem failedCommandChangesNothingElse : Obligations.FailedCommandChangesNothingElse := by
  intro i s t h failed
  rw [exec_eq_perform, next_inj] at h
  rcases perform_outcome i s with ⟨c, -, stopped⟩ | ⟨-, completed⟩
  · rw [← h, stopped]
    rfl
  · rw [← h, completed] at failed
    exact absurd (complete_err _) failed

/-- A command stopped by an error that is no overflow changes ERR alone (R232). -/
theorem exec_of_error {i : Instr} {s : State} {c : ErrCode} (h : commandError i s = some c) (hc : c ≠ .overflow) :
    exec i s = .next { s with err := c } := by
  rw [exec_eq_perform, perform_of_error h, decide_eq_false hc, Bool.or_false]
  rfl

/-- Settles O19: the valid bit fails the command's first check that can fail. -/
theorem commandsBeforeConstructionAreRefused : Obligations.CommandsBeforeConstructionAreRefused := by
  intro s i wf
  constructor
  · intro acc invalid
    have noAcc : commandError i s = some .noAcc := by simp [commandError, wf, acc, invalid]
    exact exec_of_error noAcc nofun
  · intro stream invalid
    have noCipher : commandError i s = some .noCipher := by
      simp [commandError, wf, accCommand_of_streamCommand stream, stream, invalid]
    exact exec_of_error noCipher nofun

/-! ### The core's step (R101, R103) -/

/-- A step in which the core has the turn is the core's, on the state whose agenda has moved past it (R101). -/
theorem step_of_coreNext {s : State} {rest : List Event} (turn : s.coreNext rest) :
    step s = coreTurn { s with agenda := rest } := by
  rcases turn with ha | ⟨ha, rfl⟩
  · exact step_cons ha
  · rw [step_nil ha, ← ha]

/-- Settles O5: the core's turn with a word that decodes. -/
theorem stepPerformsTheIssuedCommand : Obligations.StepPerformsTheIssuedCommand := by
  intro s i rest hb hd turn
  have performed := coreTurn_of_decode_some (s := { s with agenda := rest }) hb hd
  exact ⟨_, exec_eq_perform i _, (step_of_coreNext turn).trans performed⟩

/-- Settles O6: the core's turn with a word that does not decode. -/
theorem illegalWordSetsErrAlone : Obligations.IllegalWordSetsErrAlone := by
  intro s rest hb hd ha
  have refused := coreTurn_of_decode_none (s := { s with agenda := rest }) hb hd
  exact (step_of_coreNext (.inl ha)).trans refused

/-! ### Every legal step completes, and consumes its event (R101, R231) -/

theorem runEvent_of_legal {e : Event} (s : State) (h : e.legal = true) : ∃ t, runEvent e s = .next t := by
  cases e with
  | core => exact coreTurn_next s
  | reset => exact ⟨resetBlock s, rfl⟩
  | busWrite off width v =>
    rcases busWrite_cases off width v s with ⟨illegal, -⟩ | ⟨r, -, -, answer⟩ | ⟨r, -, -, answer⟩
    · simp [Event.legal, illegal] at h
    · exact ⟨_, answer⟩
    · exact ⟨_, answer⟩
  | busRead off width =>
    rcases busRead_cases off width s with ⟨illegal, -⟩ | ⟨r, -, answer⟩
    · simp [Event.legal, illegal] at h
    · exact ⟨_, answer⟩

/-- A step takes the first event off the agenda and adds none (R68). -/
theorem step_agenda {s t : State} (h : step s = .next t) : t.agenda = s.agenda.tail := by
  have ofTurn {rest : List Event} (turn : s.coreNext rest) : rest = s.agenda.tail := by
    rcases turn with ha | ⟨ha, rfl⟩ <;> simp [ha]
  cases stepAnswer_of_step h with
  | idle rest turn => exact ofTurn turn
  | performed rest i turn =>
    rw [clearBusy_agenda, perform_agenda]
    exact ofTurn turn
  | illegal rest turn => exact ofTurn turn
  | reset rest ha => simp [ha]
  | lostWrite r v rest ha => simp [ha]
  | write r v rest ha =>
    obtain ⟨-, -, -, -, -, -, -, agenda, -⟩ := writeReg_frame { s with agenda := rest } r v
    simp [agenda, ha]
  | read r v rest ha => simp [ha]

/-- With no bus error to come a step completes, and leaves none to come. -/
theorem step_of_legalAgenda {s : State} (h : s.legalAgenda = true) :
    ∃ t, step s = .next t ∧ t.legalAgenda = true := by
  have completes : ∃ t, step s = .next t := by
    cases ha : s.agenda with
    | nil =>
      rw [step_nil ha]
      exact coreTurn_next s
    | cons e rest =>
      rw [State.legalAgenda, ha, List.all_cons, Bool.and_eq_true] at h
      obtain ⟨first, -⟩ := h
      rw [step_cons ha]
      exact runEvent_of_legal _ first
  obtain ⟨t, ht⟩ := completes
  refine ⟨t, ht, ?_⟩
  rw [State.legalAgenda, List.all_eq_true] at h ⊢
  rw [step_agenda ht]
  exact fun e he => h e (List.mem_of_mem_tail he)

/-- Settles O7: every meaning answers a state, and so does every event that is no bus error. -/
theorem everyLegalStepCompletes : Obligations.EveryLegalStepCompletes :=
  ⟨fun i s => ⟨perform i s, exec_eq_perform i s⟩, fun _ => step_of_legalAgenda⟩

/-- Settles O10, by induction on the events to come: a step either leaves BUSY = 0 or has one event fewer before it,
and with none left it is the core's. -/
theorem outstandingCommandIsPerformed : Obligations.OutstandingCommandIsPerformed := by
  intro s legal hb
  induction ha : s.agenda generalizing s with
  | nil =>
    obtain ⟨t, ht, -⟩ := step_of_legalAgenda legal
    obtain ⟨-, cleared⟩ := busyChangesOnlyAtIssueAndPerformance s t ht
    exact ⟨1, le_rfl, t, run_next 0 ht, (cleared hb).2 (.inl ha)⟩
  | cons e rest ih =>
    obtain ⟨t, ht, legal'⟩ := step_of_legalAgenda legal
    cases hbt : t.busy with
    | false => exact ⟨1, Nat.le_add_left 1 _, t, run_next 0 ht, hbt⟩
    | true =>
      have toCome : t.agenda = rest := by rw [step_agenda ht, ha, List.tail_cons]
      obtain ⟨k, hk, u, run, idle⟩ := ih t legal' hbt toCome
      exact ⟨k + 1, Nat.succ_le_succ hk, u, (run_next k ht).trans run, idle⟩

end Sys2Proof.Machine

/-! PROOFS. The seed expander and the mix primitive (spec 41_primitives.md R120 to R126), and the accumulator INIT
constructs from them (spec 42_accumulator.md R140, R148). -/

namespace Sys2Proof.Machine

open Sys2Proof

/-! ### The mix primitive (R123, R125) -/

theorem mix_zero_left (P : Params) (b : U64) : mix P 0 b = b := by simp [mix_eq]

/-- With the constant as the second operand the product is 0 (R125 (b)). -/
theorem mix_constant (P : Params) (a : U64) : mix P a P.mixK = a ^^^ P.mixK := by simp [mix_eq]

/-- Equal operands cancel and leave the product's folded halves (R125 (e)). -/
theorem mix_self (P : Params) (a : U64) : mix P a a =
    (mul128 a (a ^^^ P.mixK)).extractLsb' 0 64 ^^^ (mul128 a (a ^^^ P.mixK)).extractLsb' 64 64 := by
  simp [mix]

/-- `mix` from any two words that spell the exact product (R123). -/
theorem mix_of_halves (P : Params) (a b : U64) {lo hi : Nat} (hlo : lo < 2 ^ 64)
    (product : hi * 2 ^ 64 + lo = a.toNat * (b ^^^ P.mixK).toNat) :
    mix P a b = a ^^^ b ^^^ BitVec.ofNat 64 lo ^^^ BitVec.ofNat 64 hi := by
  have low : a.toNat * (b ^^^ P.mixK).toNat % 2 ^ 64 = lo := by omega
  have high : a.toNat * (b ^^^ P.mixK).toNat / 2 ^ 64 = hi := by omega
  rw [mix_eq, low, high]

/-- A factor 1 makes the product the constant itself, so its high half is 0. -/
theorem mix_one_zero (P : Params) : mix P 1 0 = 1 ^^^ P.mixK := by
  have product : 0 * 2 ^ 64 + P.mixK.toNat = (1 : U64).toNat * (0 ^^^ P.mixK).toNat := by simp
  simpa using mix_of_halves P 1 0 P.mixK.isLt product

/-- The exact product is at most (2^64 - 1)^2, which is 2^64 (2^64 - 2) + 1 (R125 (c)). -/
theorem mul128_high_le (a b : U64) : (mul128 a b).toNat / 2 ^ 64 ≤ 2 ^ 64 - 2 := by
  have bound : a.toNat * b.toNat ≤ (2 ^ 64 - 1) * (2 ^ 64 - 1) :=
    Nat.mul_le_mul (Nat.le_sub_one_of_lt a.isLt) (Nat.le_sub_one_of_lt b.isLt)
  rw [mul128_toNat]
  omega

/-- Settles O21: MIX has no check, so it writes its one result and completes. -/
theorem mixWritesTheFoldedProduct : Obligations.MixWritesTheFoldedProduct := by
  intro s a b p
  have result : performMix Config.params s =
      { s with res := s.res.set 0 (mix Config.params a b), err := .ok } := by
    rw [performMix, writeRes_one]; rfl
  rw [exec_eq_perform, perform, result, mix_eq]

/-- Settles O23. -/
theorem mixCornerCases : Obligations.MixCornerCases := fun P a b =>
  ⟨mix_zero_left P b, mix_constant P a, mul128_high_le a (b ^^^ P.mixK), mix_self P a⟩

/-- Settles O24: the operands 0 and 1 tell every other constant from 0, for mix(1, 0) = 1 XOR MIX_K and mix(0, 1) = 1;
without the constant, product and exclusive-or both commute. -/
theorem mixIsSymmetricOnlyForZeroConstant : Obligations.MixIsSymmetricOnlyForZeroConstant := by
  intro P
  constructor
  · intro symmetric
    have swapped : 1 ^^^ P.mixK = 1 := by rw [← mix_one_zero, symmetric, mix_zero_left]
    simpa using swapped
  · intro noConstant a b
    have unmixed (x : U64) : x ^^^ P.mixK = x := by simp [noConstant]
    rw [mix_eq, mix_eq, unmixed, unmixed, BitVec.xor_comm a, Nat.mul_comm a.toNat]

/-! ### The product by 32-bit limbs (R126) -/

/-- Carrying the partial products p (low), q and r (middle) and s (high) in base 2^32 loses nothing. -/
theorem limb_carries (p q r s : Nat) :
    (s + q / 2 ^ 32 + r / 2 ^ 32 + (p / 2 ^ 32 + q % 2 ^ 32 + r % 2 ^ 32) / 2 ^ 32) * 2 ^ 64 +
      ((p / 2 ^ 32 + q % 2 ^ 32 + r % 2 ^ 32) % 2 ^ 32 * 2 ^ 32 + p % 2 ^ 32) =
      s * 2 ^ 64 + (q + r) * 2 ^ 32 + p := by
  omega

/-- Schoolbook multiplication of two numbers cut into their low 32 bits and the rest. -/
theorem mul_by_limbs (x y : Nat) :
    x / 2 ^ 32 * (y / 2 ^ 32) * 2 ^ 64 + (x % 2 ^ 32 * (y / 2 ^ 32) + x / 2 ^ 32 * (y % 2 ^ 32)) * 2 ^ 32 +
      x % 2 ^ 32 * (y % 2 ^ 32) = x * y := by
  conv_rhs => rw [← Nat.div_add_mod x (2 ^ 32), ← Nat.div_add_mod y (2 ^ 32)]
  ring

/-- Settles O22: the carried limbs spell the exact product, and the bound on the high sum is the product's. -/
theorem limbProductGivesMix : Obligations.LimbProductGivesMix := by
  intro P a b c a0 a1 c0 c1 mid lo hi
  have product : hi * 2 ^ 64 + lo = a.toNat * c.toNat :=
    (limb_carries (a0 * c0) (a0 * c1) (a1 * c0) (a1 * c1)).trans (mul_by_limbs a.toNat c.toNat)
  have lowLimbs : a0 * c0 < 2 ^ 32 * 2 ^ 32 :=
    Nat.mul_lt_mul_of_lt_of_lt (Nat.mod_lt _ (by decide)) (Nat.mod_lt _ (by decide))
  have exact128 : a.toNat * c.toNat < 2 ^ 64 * 2 ^ 64 := Nat.mul_lt_mul_of_lt_of_lt a.isLt c.isLt
  have hmid : mid < 2 ^ 34 := by omega
  have hlo : lo < 2 ^ 64 := by omega
  exact ⟨hmid, by omega, product, mix_of_halves P a b hlo product⟩

/-! ### The seed expander and INIT (R120, R121, R140) -/

@[simp] theorem seNext_state (P : Params) (se : U64) : (seNext P se).2 = se + P.seGamma := rfl

/-- One more increment on top of k of them. -/
theorem advance_succ (se g : U64) (k : Nat) :
    se + BitVec.ofNat 64 k * g + g = se + BitVec.ofNat 64 (k + 1) * g := by
  rw [BitVec.ofNat_add, BitVec.add_mul, BitVec.one_mul, BitVec.add_assoc]

/-- Lane k is the draw from the seed advanced k times (R121). -/
theorem expand_lane (P : Params) (seed : U64) (k : Fin 4) :
    (expand P seed)[k] = (seNext P (seed + BitVec.ofNat 64 k.val * P.seGamma)).1 := by
  have unadvanced : seed = seed + BitVec.ofNat 64 0 * P.seGamma := by simp
  have draws : expand P seed = Vector.ofFn fun k : Fin 4 =>
      (seNext P (seed + BitVec.ofNat 64 k.val * P.seGamma)).1 := by
    conv_lhs => rw [unadvanced]
    simp only [expand, seNext_state, advance_succ]
    rfl
  rw [draws]; exact Vector.getElem_ofFn k.isLt

/-- Settles O25: lane k is drawn from SEED + k SE_GAMMA, and the draw adds SE_GAMMA once more. -/
theorem initConstructsTheAccumulator : Obligations.InitConstructsTheAccumulator := by
  intro s
  refine ⟨performInit Config.params s, exec_eq_perform .init s, rfl, rfl, rfl, rfl, fun k => ?_⟩
  have lane := expand_lane Config.params s.seed k
  rw [seNext, advance_succ] at lane
  exact lane

/-- Settles O29: nothing is pending after INIT, so the blocks of the stream are the ones absorbed. -/
theorem accumulatorIsAFunctionOfTheStream : Obligations.AccumulatorIsAFunctionOfTheStream := by
  intro P seed s short
  have empty : (initAcc P seed).fill < 32 := Nat.zero_lt_succ 31
  obtain ⟨lane, -, fill, pend⟩ := absorb_spec P (initAcc P seed) s empty
  have noneLive : livePend (initAcc P seed) = [] := livePend_empty _ rfl
  have blocks : (initAcc P seed).fill + s.length = s.length := Nat.zero_add _
  rw [noneLive, List.nil_append, blocks] at lane pend
  have count : (absorb P (initAcc P seed) s).count.toNat = s.length := by
    rw [absorb_count_toNat P empty (by simpa [initAcc] using short)]; simp [initAcc]
  refine ⟨count, by rw [fill, blocks, count], pend, fun i => ?_⟩
  rw [lane]
  exact processSpans_lane P _ _ s i.val i.isLt

end Sys2Proof.Machine

/-! PROOFS. The accumulator's INS (spec 42_accumulator.md R141 to R149): what one command absorbs, INS 0, absorption in
pieces, the independence of the lanes, and the padded copy the finalizers read (spec 43_standard_finalizer.md R160). -/

namespace Sys2Proof.Machine

open Sys2Proof

@[simp] theorem absorb_nil (P : Params) (a : Acc) : absorb P a [] = a := if_pos rfl

/-! ### Absorbing at most one block (R149) -/

/-- While the pending buffer does not fill, no lane is touched. -/
theorem absorb_lane_of_lt (P : Params) {a : Acc} {s : List Byte} (short : a.fill + s.length < 32) :
    (absorb P a s).lane = a.lane := by
  obtain ⟨lane, -⟩ := absorb_spec P a s (by omega)
  rw [lane, Nat.div_eq_of_lt short, processSpans_zero]

/-- From the pending bytes and up to a block more, the buffer fills once, and its block goes to the lanes. -/
theorem absorb_lane_of_one_block (P : Params) {a : Acc} {s : List Byte} (h : a.fill < 32)
    (full : 32 ≤ a.fill + s.length) (once : a.fill + s.length < 64) :
    (absorb P a s).lane = (process32 P a ((livePend a ++ s).take 32)).lane := by
  obtain ⟨lane, -⟩ := absorb_spec P a s h
  have one : (a.fill + s.length) / 32 = 0 + 1 := by omega
  rw [lane, one, processSpans_succ, processSpans_zero]

/-- Settles O26: the checks pass, so INS absorbs `len` bytes, which with the pending ones make one block at most. -/
theorem insAbsorbsDataBytes : Obligations.InsAbsorbsDataBytes := by
  intro s len hlen valid noFault fill room
  have bytes : ((dbytes s).take len).length = len := by simpa using hlen
  have count := absorb_count_toNat Config.params (s := (dbytes s).take len) fill (by omega)
  obtain ⟨-, -, newFill, pend⟩ := absorb_spec Config.params s.acc ((dbytes s).take len) fill
  rw [bytes] at count newFill pend
  have run : exec (.ins len) s = .next (afterIns s.data len s) :=
    (exec_eq_perform _ s).trans (congrArg _ (perform_ins s.data hlen valid noFault room))
  refine ⟨afterIns s.data len s, run, rfl, count, newFill, pend, fun i => ?_⟩
  change (absorb Config.params s.acc ((dbytes s).take len)).lane[i.val] = _
  split
  next short =>
    rw [absorb_lane_of_lt Config.params (bytes.symm ▸ short)]
    rfl
  next full =>
    rw [absorb_lane_of_one_block Config.params fill (by omega) (by omega), process32_lane,
      slice_take _ _ _ _ (by omega)]
    rfl

/-- Settles O27: the checks come first; past them the count cannot overflow, and no bytes are absorbed. -/
theorem zeroLengthInsIsANoOp : Obligations.ZeroLengthInsIsANoOp := by
  intro s
  rw [exec_eq_perform, next_inj, perform]
  rcases performIns_cases Config.params 0 s (Nat.zero_le 32) with ⟨invalid, h⟩ | ⟨valid, faulted, h⟩ |
    ⟨-, -, overflow, -⟩ | ⟨valid, noFault, -, h⟩
  · rw [h, if_pos invalid]; rfl
  · rw [h, if_neg (by simp [valid]), if_pos faulted]; rfl
  · have inRange := s.acc.count.isLt
    omega
  · rw [h, if_neg (by simp [valid]), if_neg (by simp [noFault]), List.take_zero, absorb_nil]; rfl

/-- Settles O28: the four parts are those in which the two accumulators agree. -/
theorem absorbIsChunkInvariant : Obligations.AbsorbIsChunkInvariant := absorb_append

/-! ### Each lane by itself (R146) -/

theorem keepTail_lane (a : Acc) (t : List Byte) : (keepTail a t).lane = a.lane := by
  unfold keepTail; split <;> rfl

section
variable (P : Params) {a b : Acc} (s : List Byte) (pend : a.pend = b.pend) (fill : a.fill = b.fill)
include fill

/-- How many bytes the top-up takes depends on the fill alone. -/
theorem topUp_taken_congr : (topUp P a s).2 = (topUp P b s).2 := by
  simp only [topUp, fill]
  split_ifs <;> rfl

include pend

/-- The top-up's block is the pending buffer's, so it mixes the same word into lane i. -/
theorem topUp_lane_congr {i : Nat} (h : i < 4) (lane : a.lane[i] = b.lane[i]) :
    (topUp P a s).1.lane[i] = (topUp P b s).1.lane[i] := by
  simp only [topUp, pend, fill]
  split_ifs
  · simp only [process32_lane P _ _ i h, lane]
  · exact lane
  · exact lane

theorem absorb_lane_congr {i : Nat} (h : i < 4) (lane : a.lane[i] = b.lane[i]) :
    (absorb P a s).lane[i] = (absorb P b s).lane[i] := by
  unfold absorb
  split
  · exact lane
  · simp only [keepTail_lane, processSpans_lane P _ _ _ i h, topUp_taken_congr P s fill,
      topUp_lane_congr P s pend fill h lane]

end

/-- Settles O31: the top-up, the spans and the tail each keep lane i equal. -/
theorem lanesAreIndependent : Obligations.LanesAreIndependent := fun P _ _ s i pend fill lane =>
  absorb_lane_congr P s pend fill i.isLt lane

/-! ### The padded copy (R160) -/

/-- Settles O33: zeros up to the boundary complete exactly the block that `pad_final` processes, and an empty buffer
needs none. -/
theorem padAbsorbsZerosAndKeepsTheCount : Obligations.PadAbsorbsZerosAndKeepsTheCount := by
  intro P a h
  refine ⟨?_, padFinal_count P a⟩
  rw [padFinal_lane]
  split
  next pending =>
    have room : (32 - a.fill) % 32 = 32 - a.fill := Nat.mod_eq_of_lt (by omega)
    have block : (livePend a ++ zeros (32 - a.fill)).length = 32 := by
      rw [List.length_append, livePend_length a h.le, zeros_length]; omega
    rw [room, absorb_lane_of_one_block P h (by rw [zeros_length]; omega) (by rw [zeros_length]; omega),
      List.take_of_length_le block.le]
  next empty =>
    have noZeros : zeros ((32 - a.fill) % 32) = [] := by
      rw [Nat.eq_zero_of_not_pos empty]; rfl
    rw [noZeros, absorb_nil]

end Sys2Proof.Machine

/-! PROOFS. The standard finalizer (spec 43_standard_finalizer.md R160 to R169): H256's words by the rule, the narrower
widths as its folds, and short runs of zero bytes. -/

namespace Sys2Proof.Machine

open Sys2Proof

/-! ### A finalization that passes its checks (R164 to R166) -/

/-- On a valid, non-faulted accumulator a finalization command completes with its words in RES (R104). -/
theorem exec_finalizer {f : Instr} {s : State} (hf : finalizer f = true) (valid : s.accValid = true)
    (noFault : s.accOvf = false) : exec f s = .next (complete (writeRes (finalWords s f) s)) := by
  rw [exec_eq_perform, perform_finalizer f s hf, accCheck_pass valid noFault, guarded_none]

section
variable {s : State} (valid : s.accValid = true) (noFault : s.accOvf = false)
include valid noFault

theorem exec_h256 : exec .h256 s = .next { s with
    res := (((s.res.set 0 (fin256 Config.params s.acc)[0]).set 1 (fin256 Config.params s.acc)[1]).set 2
      (fin256 Config.params s.acc)[2]).set 3 (fin256 Config.params s.acc)[3]
    err := .ok } := by
  have words : finalWords s .h256 = [(fin256 Config.params s.acc)[0], (fin256 Config.params s.acc)[1],
      (fin256 Config.params s.acc)[2], (fin256 Config.params s.acc)[3]] := rfl
  rw [exec_finalizer rfl valid noFault, words, writeRes_four, complete]

theorem exec_h128 : exec .h128 s = .next { s with
    res := (s.res.set 0 (fin128 Config.params s.acc)[0]).set 1 (fin128 Config.params s.acc)[1]
    err := .ok } := by
  have words : finalWords s .h128 = [(fin128 Config.params s.acc)[0], (fin128 Config.params s.acc)[1]] := rfl
  rw [exec_finalizer rfl valid noFault, words, writeRes_two, complete]

theorem exec_h64 : exec .h64 s = .next { s with res := s.res.set 0 (fin64 Config.params s.acc), err := .ok } := by
  rw [exec_finalizer rfl valid noFault, finalWords, writeRes_one, complete]

end

/-! ### H256 by the rule (R161) -/

/-- The length injection's second word is the count's upper half. -/
theorem ushiftRight_32_eq_ofNat_div (x : U64) : x >>> 32 = BitVec.ofNat 64 (x.toNat / 2 ^ 32) := by
  apply BitVec.eq_of_toNat_eq
  rw [BitVec.toNat_ushiftRight, Nat.shiftRight_eq_div_pow, BitVec.toNat_ofNat]
  have := x.isLt
  omega

/-- Settles O34: H256 writes the words of `fin256`, whose length injection reads the unpadded count. -/
theorem h256FollowsTheFinalizerRule : Obligations.H256FollowsTheFinalizerRule := by
  intro s valid noFault
  dsimp only
  rw [exec_h256 valid noFault, ← ushiftRight_32_eq_ofNat_div, ← padFinal_count Config.params s.acc]
  rfl

/-! ### The three widths (R168) -/

/-- The 64-bit result folds the 128-bit one (R168). -/
theorem fin64_eq_xor_fin128 (P : Params) (a : Acc) : fin64 P a = (fin128 P a)[0] ^^^ (fin128 P a)[1] :=
  BitVec.xor_assoc _ _ _

/-- Settles O35: each width is `fin256`'s words or a fold of them, and since a finalization leaves ACC as it was, the
next one in the row reads the same accumulator. -/
theorem finalizerWidthsAreConsistent : Obligations.FinalizerWidthsAreConsistent := by
  intro s valid noFault
  refine ⟨fin256 Config.params s.acc, exec_h256 valid noFault, exec_h128 valid noFault, exec_h64 valid noFault,
    _, _, _, exec_h256 valid noFault, exec_h128 valid noFault, exec_h64 valid noFault,
    by simp [fin128], by simp [fin128], by simp [fin64], ?_⟩
  simpa using fin64_eq_xor_fin128 Config.params s.acc

/-! ### Runs of zero bytes (R169) -/

theorem zeros_append (m n : Nat) : zeros m ++ zeros n = zeros (m + n) := List.replicate_append_replicate

/-- Settles O36: the k zeros stay pending, so padding completes them to the one all-zero block; the padded copy keeps
the count, which is k. -/
theorem zeroPaddingIsToldApartByTheCount : Obligations.ZeroPaddingIsToldApartByTheCount := by
  intro P seed k pos short
  have small : k / 32 = 0 ∧ k % 32 = k := by omega
  obtain ⟨count, fill, pend, -⟩ :=
    accumulatorIsAFunctionOfTheStream P seed (zeros k) (by rw [zeros_length]; omega)
  rw [zeros_length] at count pend
  rw [count, small.2] at fill
  rw [small.1, Nat.mul_zero, List.drop_zero] at pend
  have untouched : (absorb P (initAcc P seed) (zeros k)).lane = (initAcc P seed).lane :=
    absorb_lane_of_lt P (by simpa [initAcc] using Nat.lt_succ_of_le short)
  refine ⟨?_, by rw [padFinal_count, count]⟩
  rw [padFinal_lane, fill, if_pos (show 0 < k from pos), pend, zeros_append, Nat.add_sub_cancel' (by omega)]
  exact process32_lane_congr P _ untouched

end Sys2Proof.Machine

/-! PROOFS. The secure finalizer (spec 44_secure_finalizer.md R180 to R187): its three widths as the first words of one
encrypted SecureBlock, and what it does not read. -/

namespace Sys2Proof.Machine

open Sys2Proof

/-! ### The words of a byte string (R16, R43) -/

/-- Fewer words of a string are the first of its words. -/
theorem leWords_take {w n : Nat} (h : w ≤ n) (s : List Byte) : leWords w s = (leWords n s).take w := by
  rw [leWords, leWords, ← List.map_take, List.take_range, min_eq_left h]

theorem leWords_succ (n : Nat) (s : List Byte) : leWords (n + 1) s = le64 (s.take 8) :: leWords n (s.drop 8) := by
  simp only [leWords, List.range_succ_eq_map, List.map_cons, List.map_map, Nat.mul_zero, Nat.zero_add, slice_zero]
  congr 1
  refine List.map_congr_left fun k _ => ?_
  simp only [Function.comp_apply, slice, List.drop_drop, Nat.add_sub_cancel_left]
  congr 3
  omega

/-- Words written out byte by byte read back as themselves. -/
theorem leWords_flatMap_toBytesLe (ws : List U64) : leWords ws.length (ws.flatMap (toBytesLe · 8)) = ws := by
  induction ws with
  | nil => rfl
  | cons w ws ih =>
    have first : (toBytesLe w 8).length = 8 := toBytesLe_length w 8
    rw [List.length_cons, leWords_succ, List.flatMap_cons, List.take_left' first, List.drop_left' first,
      le64_toBytesLe, ih]

/-- The words of an exclusive-or of byte strings are the exclusive-or of their words. -/
theorem leWords_zipWith_xor {n : Nat} {s t : List Byte} (hs : 8 * n ≤ s.length) (ht : 8 * n ≤ t.length) :
    leWords n (List.zipWith (· ^^^ ·) s t) = List.zipWith (· ^^^ ·) (leWords n s) (leWords n t) := by
  induction n generalizing s t with
  | zero => rfl
  | succ n ih =>
    rw [leWords_succ, leWords_succ, leWords_succ, List.take_zipWith, List.drop_zipWith, List.zipWith_cons_cons,
      le64_zipWith_xor _ _ (by rw [List.length_take]; omega) (by rw [List.length_take]; omega),
      ih (by rw [List.length_drop]; omega) (by rw [List.length_drop]; omega)]

/-- The eight words of a keystream block (R203, R43). -/
theorem leWords_blockFn (st : Vector U32 16) : leWords 8 (blockFn st).toList = List.ofFn (blockWord64 st) := by
  refine List.ext_getElem (by simp) fun k hk _ => ?_
  rw [leWords_getElem, List.getElem_ofFn]
  exact le64_blockFn st ⟨k, by simpa using hk⟩

/-! ### The encrypted SecureBlock (R180, R181) -/

/-- The SecureBlock of a padded copy as eight words: the lanes, the two halves of the count, the constants (R180). -/
def secureBlockWords (c : Acc) : Vector U64 8 :=
  #v[c.lane[0], c.lane[1], c.lane[2], c.lane[3], BitVec.ofNat 64 (c.count.toNat % 2 ^ 32),
    BitVec.ofNat 64 (c.count.toNat / 2 ^ 32), sbK0, sbK1]

theorem zeroExtend_low_half (x : U64) :
    (x.extractLsb' 0 32).zeroExtend 64 = BitVec.ofNat 64 (x.toNat % 2 ^ 32) := by
  apply BitVec.eq_of_toNat_eq
  simp [BitVec.extractLsb'_toNat]

theorem zeroExtend_high_half (x : U64) :
    (x.extractLsb' 32 32).zeroExtend 64 = BitVec.ofNat 64 (x.toNat / 2 ^ 32) := by
  apply BitVec.eq_of_toNat_eq
  have := x.isLt
  simp [BitVec.extractLsb'_toNat, Nat.shiftRight_eq_div_pow]
  omega

theorem secureBlock_eq_flatMap (c : Acc) : secureBlock c = (secureBlockWords c).toList.flatMap (toBytesLe · 8) := by
  rw [secureBlock, zeroExtend_low_half, zeroExtend_high_half]
  simp [secureBlockWords]

@[simp] theorem secureBlock_length (c : Acc) : (secureBlock c).length = 64 := by simp [secureBlock]

theorem leWords_secureBlock (c : Acc) : leWords 8 (secureBlock c) = (secureBlockWords c).toList := by
  rw [secureBlock_eq_flatMap]
  exact leWords_flatMap_toBytesLe (secureBlockWords c).toList

/-- A fresh cipher meets 64 bytes with exactly one keystream block, its first (R181). -/
theorem cipherXor_cipherNew (P : Params) (k : Vector U32 8) (n : Vector U32 3) (ctr : U64) {s : List Byte}
    (h : s.length = 64) :
    (cipherXor (cipherNew P k n ctr) s).2 =
      List.zipWith (· ^^^ ·) s (blockFn (initState P k n ctr)).toList := by
  have nonempty : s ≠ [] := List.ne_nil_of_length_pos (by omega)
  rw [cipherXor_at_end _ s rfl nonempty, cipherXor_inside _ s (by simp [h]) (.inl (by simp))]
  rfl

/-- The words of the encrypted SecureBlock of an accumulator: word k of the block XOR word k of the keystream (R181). -/
def secureWords (P : Params) (a : Acc) (k : Vector U32 8) (n : Vector U32 3) : Vector U64 8 :=
  Vector.ofFn fun j => (secureBlockWords (padFinal P a))[j] ^^^ blockWord64 (initState P k n ctrInit) j

/-- Every width up to 8 takes the first of the same eight words (R186). -/
theorem secure_eq_take (P : Params) (a : Acc) {w : Nat} (hw : w ≤ 8) (k : Vector U32 8) (n : Vector U32 3) :
    secure P a w k n = (secureWords P a k n).toList.take w := by
  rw [secure, leWords_take hw, cipherXor_cipherNew P k n ctrInit (secureBlock_length _),
    leWords_zipWith_xor (by simp) (by simp), leWords_secureBlock, leWords_blockFn]
  refine congrArg (List.take w) (List.ext_getElem (by simp) fun j _ _ => ?_)
  simp only [secureWords, List.getElem_zipWith, List.getElem_ofFn, Vector.getElem_toList, Vector.getElem_ofFn,
    Fin.getElem_fin]

theorem toList_eq_eight {α : Type} (v : Vector α 8) :
    v.toList = [v[0], v[1], v[2], v[3], v[4], v[5], v[6], v[7]] :=
  List.ext_getElem (by simp) fun j hj _ => by
    have : j < 8 := by simpa using hj
    interval_cases j <;> rfl

/-- Settles O38: the eight words are those of the encrypted SecureBlock, whose count is the unpadded one, and each
command writes as many of the first ones as it has results. -/
theorem secureCommandsNestOneEncryptedBlock : Obligations.SecureCommandsNestOneEncryptedBlock := by
  intro s valid noFault c lo hi block st
  let w := secureWords Config.params s.acc (keyWords s) (nonceWords s)
  have words {n : Nat} (hn : n ≤ 8) : secure Config.params s.acc n (keyWords s) (nonceWords s) = w.toList.take n :=
    secure_eq_take _ _ hn _ _
  have two : w.toList.take 2 = [w[0], w[1]] := congrArg (List.take 2) (toList_eq_eight w)
  have four : w.toList.take 4 = [w[0], w[1], w[2], w[3]] := congrArg (List.take 4) (toList_eq_eight w)
  have eight : w.toList.take 8 = w.toList := List.take_of_length_le (by simp)
  have sameBlock : secureBlockWords c = block := by rw [secureBlockWords, padFinal_count]
  refine ⟨w, fun k => ?_, ?_, ?_, ?_⟩
  · rw [← sameBlock]
    simp [w, secureWords, c, st, ctrInit]
  · rw [exec_finalizer rfl valid noFault, finalWords, words (by decide), two, writeRes_two, complete]
  · rw [exec_finalizer rfl valid noFault, finalWords, words (by decide), four, writeRes_four, complete]
  · rw [exec_finalizer rfl valid noFault, finalWords, words (by decide), eight, writeRes_eight, complete]

/-! ### What a finalization reads (R182, R187) -/

/-- The secure commands are finalization commands (R183 to R185). -/
theorem finalizer_of_secure {i : Instr} (h : i = .sec128 ∨ i = .sec256 ∨ i = .sec512) : finalizer i = true := by
  rcases h with rfl | rfl | rfl <;> rfl

/-- A finalization command reads the accumulator's checks, its result words and RES: where they are the same, it
writes the same. -/
theorem perform_finalizer_congr {f : Instr} {s s' t : State} (hf : finalizer f = true) (ht : perform f s = t)
    (words : finalWords s' f = finalWords s f) (check : accCheck s' = accCheck s) (res : s'.res = s.res) :
    perform f s' = { s' with res := t.res, err := t.err } := by
  subst ht
  rw [perform_finalizer f s hf, perform_finalizer f s' hf, check]
  cases accCheck s with
  | some c => simp only [guarded_some, raiseError, ← res]
  | none => simp only [guarded_none, writeRes, complete, words, res]

/-- Settles O39: no check and no result word of a finalization reads CIPH or its valid bit. -/
theorem secureCommandsIgnoreTheCipherInstance : Obligations.SecureCommandsIgnoreTheCipherInstance := by
  intro s t i e b hi ht
  rw [exec_eq_perform, next_inj] at ht
  have hf := finalizer_of_secure hi
  have words : finalWords { s with ciph := e, ciphValid := b } i = finalWords s i := by
    rcases hi with rfl | rfl | rfl <;> rfl
  have frame : t = { s with res := t.res, err := t.err } := ht ▸ perform_finalizer_frame s hf
  rw [exec_eq_perform, next_inj, perform_finalizer_congr hf ht words rfl rfl, frame]
  exact ⟨rfl, rfl, rfl⟩

/-! ### The captured nonce (R201, R204) -/

/-- Keystream is drawn from the input state alone: the captured nonce is carried along (R204, R207). -/
theorem cipherXor_ignores_nonce (e : Cipher) (m : Vector U32 3) (s : List Byte) :
    cipherXor { e with nonce := m } s = ({ (cipherXor e s).1 with nonce := m }, (cipherXor e s).2) := by
  induction s generalizing e with
  | nil => rfl
  | cons b s ih =>
    have refilled : refill { e with nonce := m } = { refill e with nonce := m } := by
      unfold refill
      split <;> rfl
    rw [cipherXor_cons, cipherXor_cons, refilled, ih { refill e with cur := (refill e).cur + 1 }]

/-- Nonce word 2 enters no input state: a fresh cipher only keeps it (R200, R201). -/
theorem cipherNew_congr_nonce (P : Params) (k : Vector U32 8) {n m : Vector U32 3} (ctr : U64)
    (h0 : m[0] = n[0]) (h1 : m[1] = n[1]) : cipherNew P k m ctr = { cipherNew P k n ctr with nonce := m } := by
  simp only [cipherNew, initState, h0, h1]

/-- The secure words do not depend on nonce word 2 (R187). -/
theorem secure_congr_nonce (P : Params) (a : Acc) (w : Nat) (k : Vector U32 8) {n m : Vector U32 3}
    (h0 : m[0] = n[0]) (h1 : m[1] = n[1]) : secure P a w k m = secure P a w k n := by
  rw [secure, secure, cipherNew_congr_nonce P k ctrInit h0 h1, cipherXor_ignores_nonce]

theorem commandError_ignores_captured_nonce (i : Instr) (s : State) (m : Vector U32 3) :
    commandError i { s with ciph := { s.ciph with nonce := m } } = commandError i s := by
  cases i <;> rfl

/-- CGEN and CXOR have the same effect whatever the captured nonce is, and keep it (R204, R207). -/
theorem effect_ignores_captured_nonce {i : Instr} (hi : streamCommand i = true) (s : State) (m : Vector U32 3) :
    effect i { s with ciph := { s.ciph with nonce := m } } =
      { effect i s with ciph := { (effect i s).ciph with nonce := m } } := by
  cases i with
  | cgen => rfl
  | cxor len =>
    exact congrArg
      (fun r : Cipher × List Byte => writeRes (leWords 4 (r.2 ++ zeros (32 - len))) (setCipher r.1 s))
      (cipherXor_ignores_nonce s.ciph m ((dbytes s).take len))
  | _ => cases hi

theorem perform_ignores_captured_nonce {i : Instr} (hi : streamCommand i = true) (s : State) (m : Vector U32 3) :
    perform i { s with ciph := { s.ciph with nonce := m } } =
      { perform i s with ciph := { (perform i s).ciph with nonce := m } } := by
  have same := commandError_ignores_captured_nonce i s m
  cases hc : commandError i s with
  | some c =>
    rw [perform_of_error hc, perform_of_error (same.trans hc)]
    rfl
  | none =>
    rw [perform_of_no_error hc, perform_of_no_error (same.trans hc), effect_ignores_captured_nonce hi]
    rfl

/-- Settles O40: nonce word 2 reaches no input state, so it changes neither a secure command's words nor anything of
a fresh cipher but its captured nonce, which no keystream is drawn from. -/
theorem highNonceWordAffectsNoOutput : Obligations.HighNonceWordAffectsNoOutput := by
  refine ⟨fun s t n i hi ht => ?secure, fun s t n m ht hm => ?cinit, fun s t m i hi ht => ?stream⟩
  case secure =>
    rw [exec_eq_perform, next_inj] at ht
    have hf := finalizer_of_secure hi
    have words : finalWords { s with nonce1 := n } i = finalWords s i := by
      rcases hi with rfl | rfl | rfl <;> exact secure_congr_nonce _ _ _ _ rfl rfl
    have frame : t = { s with res := t.res, err := t.err } := ht ▸ perform_finalizer_frame s hf
    rw [exec_eq_perform, next_inj, perform_finalizer_congr hf ht words rfl rfl, frame]
  case cinit =>
    rw [exec_eq_perform, next_inj] at ht ⊢
    subst ht hm
    exact congrArg (fun e => complete { setCipher e { s with nonce1 := n } with ciphValid := true })
      (cipherNew_congr_nonce Config.params (keyWords s) ctrInit rfl rfl)
  case stream =>
    rw [exec_eq_perform, next_inj] at ht ⊢
    rw [perform_ignores_captured_nonce hi, ht]

end Sys2Proof.Machine

/-! PROOFS. The stream cipher (spec 45_stream_cipher.md R203 to R212): which keystream byte each data byte meets,
encryption in pieces and encryption undone, CGEN and CXOR. -/

namespace Sys2Proof.Machine

open Sys2Proof

/-! ### Encryption in pieces and encryption undone (R208) -/

/-- The second call goes on from the instance the first one leaves. -/
theorem cipherXor_append (e : Cipher) (s1 s2 : List Byte) :
    cipherXor e (s1 ++ s2) =
      ((cipherXor (cipherXor e s1).1 s2).1, (cipherXor e s1).2 ++ (cipherXor (cipherXor e s1).1 s2).2) := by
  induction s1 generalizing e with
  | nil => rfl
  | cons b s1 ih => rw [List.cons_append, cipherXor_cons, cipherXor_cons, ih]; rfl

/-- The keystream drawn does not depend on the data, so a second pass meets the same bytes and cancels them. -/
theorem cipherXor_cipherXor (e : Cipher) (s : List Byte) : (cipherXor e (cipherXor e s).2).2 = s := by
  induction s generalizing e with
  | nil => rfl
  | cons b s ih => rw [cipherXor_cons, cipherXor_cons, ih, BitVec.xor_assoc, BitVec.xor_self, BitVec.xor_zero]

/-- Settles O44: both halves hold byte by byte along the data, for every instance. -/
theorem encryptionIsItsOwnInverse : Obligations.EncryptionIsItsOwnInverse := fun e s1 s2 =>
  ⟨cipherXor_cipherXor e s1, cipherXor_append e s1 s2⟩

/-! ### The keystream byte each data byte meets (R207) -/

/-- The keystream byte `j` places past the cursor: of the buffered block up to its end, then of the next block. -/
def keystreamByte (e : Cipher) (j : Nat) : Byte :=
  if h : e.cur + j < 64 then e.ks[e.cur + j] else (blockFn e.st)[(e.cur + j) % 64]

theorem keystreamByte_inside (e : Cipher) {j : Nat} (h : e.cur + j < 64) : keystreamByte e j = e.ks[e.cur + j] :=
  dif_pos h

theorem keystreamByte_next (e : Cipher) {j : Nat} (h : 64 ≤ e.cur + j) (hk : e.cur + j - 64 < 64) :
    keystreamByte e j = (blockFn e.st)[e.cur + j - 64] := by
  have wraps : (e.cur + j) % 64 = e.cur + j - 64 := by omega
  simp only [keystreamByte, dif_neg (Nat.not_lt.2 h), wraps]

/-- Up to a block of data, byte by byte: inside the buffered block or past its end into the next. -/
theorem cipherXor_getElem (e : Cipher) (s : List Byte) (hc : e.cur ≤ 64) (short : s.length ≤ 64) {j : Nat}
    (hj : j < s.length) :
    (cipherXor e s).2[j]'(by rw [cipherXor_length]; exact hj) = s[j] ^^^ keystreamByte e j := by
  rcases Nat.lt_or_ge 64 (e.cur + s.length) with past | inside
  · simp only [cipherXor_across e s hc past short]
    rcases Nat.lt_or_ge (e.cur + j) 64 with before | after
    · rw [List.getElem_append_left (by simp; omega), keystreamByte_inside e before]
      simp
    · have first : (List.zipWith (· ^^^ ·) (s.take (64 - e.cur)) (e.ks.toList.drop e.cur)).length = 64 - e.cur := by
        simp; omega
      have sameByte : 64 - e.cur + (j - (64 - e.cur)) = j := by omega
      have sameKey : j - (64 - e.cur) = e.cur + j - 64 := by omega
      rw [List.getElem_append_right (by omega), keystreamByte_next e after (by omega)]
      simp only [first, List.getElem_zipWith, List.getElem_drop, Vector.getElem_toList, sameByte]
      simp only [sameKey]
  · simp only [cipherXor_inside e s inside (.inl (by omega))]
    rw [keystreamByte_inside e (by omega)]
    simp

/-! ### CGEN and CXOR (R211, R212) -/

/-- With a valid cipher instance CGEN and CXOR pass their checks (R104). -/
theorem exec_streamCommand {i : Instr} {s : State} (hi : streamCommand i = true) (wf : i.wellFormed = true)
    (valid : s.ciphValid = true) : exec i s = .next (complete (effect i s)) := by
  have notAcc := accCommand_of_streamCommand hi
  have noIns : insOverflows s i = false := by
    cases i with
    | cgen | cxor => rfl
    | _ => cases hi
  rw [exec_eq_perform, perform_of_no_error (commandError_of_passes wf ⟨by simp [notAcc], fun _ => valid, noIns⟩)]

/-- Settles O42: the words written to RES are those of the block, and the counter's halves are its remainder and
quotient by 2^32. -/
theorem cgenGeneratesAndShowsABlock : Obligations.CgenGeneratesAndShowsABlock := by
  intro s valid ctr
  have words : leWords 8 (blockFn s.ciph.st).toList = (Vector.ofFn (blockWord64 s.ciph.st)).toList := by
    rw [leWords_blockFn, Vector.toList_ofFn]
  rw [exec_streamCommand rfl rfl valid, effect, cipherGen_ks, words, writeRes_eight, ← extractLsb'_low_half,
    ← extractLsb'_high_half]
  rfl

/-- Byte j of a string is byte j mod 8 of its word j div 8 (R16, R43). -/
theorem byteLane_leWords {n : Nat} {s : List Byte} {j : Nat} (hj : j < 8 * n) :
    byteLane ((leWords n s)[j / 8]'(by rw [leWords_length]; omega)) (j % 8) = (s[j]?).getD 0 := by
  have place : 8 * (j / 8) + j % 8 = j := Nat.div_add_mod j 8
  rw [leWords_getElem, byteLane_le64 _ _ (Nat.mod_lt _ (by decide)), slice_getElem?, if_pos (by omega), place]

/-- The bytes CXOR shows: the first LEN data bytes met with keystream, then zeros (R212). -/
def cxorBytes (s : State) (len : Nat) : List Byte :=
  (cipherXor s.ciph ((dbytes s).take len)).2 ++ zeros (32 - len)

theorem cxorBytes_getElem? {s : State} {len : Nat} (hlen : len ≤ 32) (hc : s.ciph.cur ≤ 64) {j : Nat} (hj : j < 32) :
    ((cxorBytes s len)[j]?).getD 0 =
      if j < len then byteLane (s.data[j / 8]'(by omega)) (j % 8) ^^^ keystreamByte s.ciph j else 0 := by
  have taken : ((dbytes s).take len).length = len := by simpa using hlen
  have bytes : (cipherXor s.ciph ((dbytes s).take len)).2.length = len := by rw [cipherXor_length, taken]
  split
  next below =>
    have data : (dbytes s)[j]'(by simpa using hj) = byteLane (s.data[j / 8]'(by omega)) (j % 8) :=
      List.getElem_eq_iff _ |>.2 (dataBytes_getElem? s.data j hj)
    rw [cxorBytes, List.getElem?_append_left (by omega), List.getElem?_eq_getElem (by omega), Option.getD_some,
      cipherXor_getElem _ _ hc (by omega) (by omega), List.getElem_take, data]
  next above =>
    rw [cxorBytes, List.getElem?_append_right (by omega), zeros, List.getElem?_replicate_of_lt (by omega),
      Option.getD_some]

/-- CXOR that passes its checks changes the instance, the result words and ERR, and nothing else (R212). -/
theorem exec_cxor {s : State} {len : Nat} (hlen : len ≤ 32) (valid : s.ciphValid = true) :
    exec (.cxor len) s = .next { s with
      ciph := (cipherXor s.ciph ((dbytes s).take len)).1
      res := (writeRes (leWords 4 (cxorBytes s len)) s).res
      err := .ok } :=
  exec_streamCommand rfl (decide_eq_true hlen) valid

/-- Settles O43: the instance goes on inside its block or across its end, and each byte of the four result words is
the one the rule names. -/
theorem cxorConsumesKeystream : Obligations.CxorConsumesKeystream := by
  intro s len hlen valid hc e
  have taken : ((dbytes s).take len).length = len := by simpa using hlen
  refine ⟨_, exec_cxor hlen valid, rfl, fun ⟨inside, room⟩ => ?inside, fun past => ?past, fun k hk => ?high,
    fun j => ?bytes⟩
  case inside =>
    dsimp only
    rw [cipherXor_inside s.ciph _ (by rw [taken]; exact inside) (room.imp_right fun h => by simp [h]), taken]
  case past =>
    dsimp only
    rw [cipherXor_across s.ciph _ hc (by rw [taken]; exact past) (by omega), taken]
  case high => exact writeRes_above _ s k k.isLt ((leWords_length _ _).trans_le hk)
  case bytes =>
    dsimp only
    rw [writeRes_below _ _ _ _ (by rw [leWords_length]; omega), byteLane_leWords (by omega)]
    exact cxorBytes_getElem? hlen hc j.isLt

end Sys2Proof.Machine

/-! PROOFS. Errors (spec 60_exceptions.md R230 to R238): the code a performed command reports, and the sticky overflow
fault: what sets it, what it refuses, what clears it, and what keeps working. -/

namespace Sys2Proof.Machine

open Sys2Proof

/-! ### The code a command reports (R234) -/

/-- A command reports the error that stopped it, and OK if none did. -/
theorem perform_err (i : Instr) (s : State) : (perform i s).err = (commandError i s).getD .ok := by
  rcases perform_outcome i s with ⟨c, hc, h⟩ | ⟨hc, h⟩ <;> rw [h, hc]
  · exact raiseError_err c _
  · exact complete_err _

theorem firstError_of_decode_none {w : U64} (s : State) (hd : decode w = none) : firstError w s = .illegal := by
  simp only [firstError, hd]

/-- R234's order for a word that decodes is the order in which the checks of R104 stop its command. -/
theorem firstError_of_decode_some {w : U64} {i : Instr} (s : State) (hd : decode w = some i) :
    firstError w s = (commandError i s).getD .ok := by
  simp only [firstError, hd, commandError, decode_wellFormed hd, Bool.true_eq_false, if_false,
    apply_ite (Option.getD · ErrCode.ok), Option.getD_some, Option.getD_none]

theorem firstError_agenda (w : U64) (s : State) (rest : List Event) :
    firstError w { s with agenda := rest } = firstError w s := by
  cases hd : decode w with
  | none => rw [firstError_of_decode_none _ hd, firstError_of_decode_none _ hd]
  | some i =>
    rw [firstError_of_decode_some _ hd, firstError_of_decode_some _ hd]
    cases i <;> rfl

/-- The core's turn reports the first error that applies to the issued word. -/
theorem coreTurn_reports_firstError {s : State} (hb : s.busy = true) :
    ∃ t, coreTurn s = .next t ∧ t.err = firstError s.cmdq s := by
  cases hd : decode s.cmdq with
  | none => exact ⟨_, coreTurn_of_decode_none hb hd, (firstError_of_decode_none s hd).symm⟩
  | some i =>
    refine ⟨_, coreTurn_of_decode_some hb hd, ?_⟩
    rw [clearBusy_err, perform_err, firstError_of_decode_some s hd]

/-- Settles O14: the core's turn stops at the first check that fails, and no stream command checks ACC. -/
theorem firstApplicableErrorIsReported : Obligations.FirstApplicableErrorIsReported := by
  refine ⟨fun s rest hb ha => ?_, fun i ⟨needsAcc, needsCiph⟩ => ?_⟩
  · obtain ⟨t, turn, reported⟩ := coreTurn_reports_firstError (s := { s with agenda := rest }) hb
    exact ⟨t, (step_of_coreNext (.inl ha)).trans turn, reported.trans (firstError_agenda s.cmdq s rest)⟩
  · simp [accCommand_of_streamCommand needsCiph] at needsAcc

/-! ### The overflow fault (R145, R233) -/

theorem commandError_faulted {i : Instr} {s : State} (wf : i.wellFormed = true) (acc : accCommand i = true)
    (valid : s.accValid = true) (faulted : s.accOvf = true) : commandError i s = some .faulted := by
  simp [commandError, wf, acc, valid, faulted]

/-- Of the commands with an encoding, OVERFLOW stops an INS alone, on a valid accumulator that is not faulted and whose
counter has no room for LEN (R145). -/
theorem commandError_eq_overflow_iff {i : Instr} (s : State) (wf : i.wellFormed = true) :
    commandError i s = some .overflow ↔
      s.accOvf = false ∧ s.accValid = true ∧ ∃ len, i = .ins len ∧ 2 ^ 64 - 1 < s.acc.count.toNat + len := by
  constructor
  · intro h
    obtain ⟨len, rfl⟩ := eq_ins_of_commandError_overflow h
    have valid : s.accValid = true := Bool.eq_true_of_not_eq_false fun invalid => by
      simp [commandError, wf, accCommand, invalid] at h
    have noFault : s.accOvf = false := Bool.eq_false_iff.2 fun faulted => by
      cases (commandError_faulted wf rfl valid faulted).symm.trans h
    have full : insOverflows s (.ins len) = true := by
      by_contra room
      simp [commandError, wf, valid, noFault, streamCommand, room] at h
    exact ⟨noFault, valid, len, rfl, of_decide_eq_true full⟩
  · rintro ⟨noFault, valid, len, rfl, full⟩
    have overflows : insOverflows s (.ins len) = true := decide_eq_true full
    simp [commandError, wf, noFault, valid, streamCommand, overflows]

/-- A command leaves OVF set if it ends with OVERFLOW, or if OVF was set and it is not INIT (R233). -/
theorem perform_accOvf (i : Instr) (s : State) :
    (perform i s).accOvf = true ↔ (s.accOvf = true ∧ i ≠ .init) ∨ commandError i s = some .overflow := by
  rcases perform_outcome i s with ⟨c, hc, h⟩ | ⟨hc, h⟩ <;> rw [h, hc]
  · have notInit : i ≠ .init := by rintro rfl; cases hc
    simp [notInit]
  · cases i <;> simp [effect]

/-- While OVF = 1 INIT is the one command that clears it (R233). -/
theorem perform_clears_accOvf_iff {s : State} (i : Instr) (faulted : s.accOvf = true) :
    (perform i s).accOvf = false ↔ i = .init := by
  rw [← Bool.not_eq_true, perform_accOvf]
  constructor
  · intro h
    by_contra notInit
    exact h (.inl ⟨faulted, notInit⟩)
  · rintro rfl (⟨-, notInit⟩ | stopped)
    · exact notInit rfl
    · cases stopped

/-- While OVF = 0 an INS that overflows a valid accumulator is the one command that sets it (R145, R233). -/
theorem perform_sets_accOvf_iff {i : Instr} {s : State} (wf : i.wellFormed = true) (noFault : s.accOvf = false) :
    (perform i s).accOvf = true ↔
      s.accValid = true ∧ ∃ len, i = .ins len ∧ 2 ^ 64 - 1 < s.acc.count.toNat + len := by
  rw [perform_accOvf, commandError_eq_overflow_iff s wf]
  simp [noFault]

theorem accCommand_of_insOverflows {i : Instr} {s : State} (h : insOverflows s i = true) : accCommand i = true := by
  cases i with
  | ins len => rfl
  | _ => cases h

/-- A command that is no accumulator command meets the check of the cipher instance alone, whatever ACC is (R104). -/
theorem passes_of_not_accCommand {i : Instr} {s : State} (notAcc : accCommand i = false)
    (ciph : streamCommand i = true → s.ciphValid = true) : passes i s := by
  refine ⟨by simp [notAcc], ciph, Bool.eq_false_iff.2 fun overflows => ?_⟩
  simp [accCommand_of_insOverflows overflows] at notAcc

/-- In every step OVF is cleared by INIT and by reset alone, and set by an overflowing INS alone (R33, R233): by the
event that happened. -/
theorem step_accOvf {s t : State} (h : step s = .next t) :
    (s.accOvf = true → (t.accOvf = false ↔ s.performs .init ∨ s.resets)) ∧
      (s.accOvf = false → (t.accOvf = true ↔
        s.accValid = true ∧ ∃ len, s.performs (.ins len) ∧ 2 ^ 64 - 1 < s.acc.count.toNat + len)) := by
  cases stepAnswer_of_step h with
  | idle rest turn hb =>
    simp +contextual [performs_iff_of_coreNext turn, not_resets_of_coreNext turn, hb]
  | performed rest i turn hb hd =>
    have cleared := perform_clears_accOvf_iff (s := { s with agenda := rest }) i
    have set := perform_sets_accOvf_iff (s := { s with agenda := rest }) (decode_wellFormed hd)
    have performs (j : Instr) : s.performs j ↔ i = j := by simp [performs_iff_of_coreNext turn, hb, hd]
    simp only [performs, not_resets_of_coreNext turn, or_false]
    exact ⟨cleared, set⟩
  | illegal rest turn hb hd =>
    simp +contextual [performs_iff_of_coreNext turn, not_resets_of_coreNext turn, hd]
  | reset rest ha => simp [State.performs, State.resets, ha, State.reset]
  | lostWrite r v rest ha hb => simp +contextual [State.performs, State.resets, ha]
  | write r v rest ha hb =>
    obtain ⟨-, -, -, kept, -⟩ := writeReg_frame { s with agenda := rest } r v
    rw [kept]
    simp +contextual [State.performs, State.resets, ha]
  | read r v rest ha => simp +contextual [State.performs, State.resets, ha]

/-- Settles O17: the four clauses of R233, each from the check that a command meets or from `step_accOvf`. -/
theorem overflowIsStickyUntilInit : Obligations.OverflowIsStickyUntilInit := by
  refine ⟨fun s len hlen valid noFault full => ?sets, fun s i wf acc valid faulted => ?refuses,
    fun s t h => step_accOvf h, fun s i wf faulted others => ?keepsWorking⟩
  case sets =>
    have wf : (Instr.ins len).wellFormed = true := decide_eq_true hlen
    have stopped : commandError (.ins len) s = some .overflow :=
      (commandError_eq_overflow_iff s wf).2 ⟨noFault, valid, len, rfl, full⟩
    rw [exec_eq_perform, perform_of_error stopped, decide_eq_true rfl, Bool.or_true]
    rfl
  case refuses => exact exec_of_error (commandError_faulted wf acc valid faulted) nofun
  case keepsWorking =>
    obtain ⟨notInit, notAcc, ciph⟩ :
        i ≠ .init ∧ accCommand i = false ∧ (streamCommand i = true → s.ciphValid = true) := by
      rcases others with rfl | rfl | ⟨valid, stream⟩
      · exact ⟨nofun, rfl, nofun⟩
      · exact ⟨nofun, rfl, nofun⟩
      · exact ⟨(by rintro rfl; cases stream), accCommand_of_streamCommand stream, fun _ => valid⟩
    have noError := commandError_of_passes wf (passes_of_not_accCommand notAcc ciph)
    exact ⟨perform i s, exec_eq_perform i s, by rw [perform_err, noError, Option.getD_none],
      (perform_accOvf i s).2 (.inl ⟨faulted, notInit⟩)⟩

end Sys2Proof.Machine

/-! PROOFS. Reset (spec 70_reset_and_hazards.md R260, R261): the words of each object after reset, and the reset event,
which leaves them whatever the state was. -/

namespace Sys2Proof.Machine

open Sys2Proof

/-- The registers that are words in a row are all cleared (R260). -/
theorem State.reset_words :
    (∀ k : Fin 4, State.reset.data[k] = 0 ∧ State.reset.key[k] = 0) ∧ ∀ k : Fin 8, State.reset.res[k] = 0 :=
  ⟨fun k => ⟨Vector.getElem_replicate k.isLt, Vector.getElem_replicate k.isLt⟩,
    fun k => Vector.getElem_replicate k.isLt⟩

/-- The lanes and the pending bytes are all cleared (R260). -/
theorem Acc.reset_words : (∀ k : Fin 4, Acc.reset.lane[k] = 0) ∧ ∀ k : Fin 32, Acc.reset.pend[k] = 0 :=
  ⟨fun k => Vector.getElem_replicate k.isLt, fun k => Vector.getElem_replicate k.isLt⟩

/-- The key, the nonce, the input state and the keystream buffer are all cleared (R260). -/
theorem Cipher.reset_words :
    (∀ k : Fin 8, Cipher.reset.key[k] = 0) ∧ (∀ k : Fin 3, Cipher.reset.nonce[k] = 0) ∧
      (∀ k : Fin 16, Cipher.reset.st[k] = 0) ∧ ∀ k : Fin 64, Cipher.reset.ks[k] = 0 :=
  ⟨fun k => Vector.getElem_replicate k.isLt, fun k => Vector.getElem_replicate k.isLt,
    fun k => Vector.getElem_replicate k.isLt, fun k => Vector.getElem_replicate k.isLt⟩

/-- Settles O50: the event's step is `resetBlock`, which reads of the state before it the host side alone, so that no
case of BUSY or of an outstanding command is told apart. -/
theorem resetLeavesTheResetValues : Obligations.ResetLeavesTheResetValues := by
  intro s rest
  obtain ⟨dataAndKey, res⟩ := State.reset_words
  obtain ⟨lane, pend⟩ := Acc.reset_words
  obtain ⟨key, nonce, st, ks⟩ := Cipher.reset_words
  refine ⟨resetBlock { s with agenda := rest }, step_reset s rest, ?_⟩
  exact ⟨rfl, rfl, rfl, rfl, rfl, dataAndKey, rfl, rfl, res, rfl, rfl, lane, rfl, rfl, pend,
    rfl, key, nonce, rfl, st, ks, rfl, rfl, rfl⟩

end Sys2Proof.Machine
